-- ==== Sys2Proof/Word.lean ====
section
/-! DEFINITION. The word types of the block (00_scope.md R6, R9, R10): registers, words, addresses, and exact time. -/

namespace Sys2Proof

/-- A byte: a general register, a timer, a memory byte, a display byte, an immediate `nn`. -/
abbrev Byte := BitVec 8

/-- A 16-bit word: an instruction, the PC, the index register, a return address. -/
abbrev Word := BitVec 16

/-- The 12-bit address field `addr` of an instruction (30_encoding.md R72). -/
abbrev Addr := BitVec 12

/-- The number of a general register, 0 to 15 (30_encoding.md R73). -/
abbrev Reg := Fin 16

/-- A point or a span of time in seconds, exact (60_exceptions.md R177; log 7). -/
abbrev Time := Rat

end Sys2Proof
end

