-- ==== Sys2Proof/Config.lean ====
section
/-! DEFINITION. The fixed parameters (00_scope.md R6) and the open parameters (00_scope.md R7) of the block. -/

namespace Sys2Proof.Config

/-- MEM_SIZE: addresses 0x000 to 0xFFF (R6). -/
abbrev memSize : Nat := 4096

/-- FONT_BASE (R6). -/
abbrev fontBase : Nat := 0x050

/-- FONT_SIZE: 16 glyphs of 5 bytes (R6). -/
abbrev fontSize : Nat := 80

/-- PROGRAM_BASE, also the reset value of the PC (R6). -/
abbrev programBase : Nat := 0x200

/-- PROGRAM_MAX: 4096 - 0x200 bytes (R6). -/
abbrev programMax : Nat := 3584

/-- WIDTH in pixels (R6). -/
abbrev width : Nat := 64

/-- HEIGHT in pixels (R6). -/
abbrev height : Nat := 32

/-- ROW_BYTES: WIDTH / 8 (R6). -/
abbrev rowBytes : Nat := 8

/-- DISPLAY_BYTES: WIDTH * HEIGHT / 8 (R6). -/
abbrev displayBytes : Nat := 256

/-- DEFAULT_FONT (R7, 92_eei_decisions.md D12): the source does not give the bytes of the built-in glyph table, so no
proof can see them (log 5). -/
opaque defaultFont : Vector Byte 80

/-- The open parameters that a model takes as an argument (R7): the call-stack limit (D11) and the two periods of the
Timing Driver (D15). State carries them, and nothing changes them (log 4). -/
structure Params where
  /-- STACK_LIMIT: `none`, or the greatest number of return addresses. -/
  stackLimit  : Option Nat
  /-- EXEC_PERIOD in seconds. -/
  execPeriod  : Time
  /-- TIMER_PERIOD in seconds. -/
  timerPeriod : Time
  deriving DecidableEq, Repr

/-- The source's own values: no stack limit, 1/700 s and 1/60 s (D11, D15). -/
def Params.source : Params := { stackLimit := none, execPeriod := 1 / 700, timerPeriod := 1 / 60 }

end Sys2Proof.Config
end

