-- ==== Sys2Proof/Syntax.lean ====
section
/-! DEFINITION. The instruction set: one constructor for each of the 19 rows of the opcode map (30_encoding.md R76). -/

namespace Sys2Proof

/-- An instruction with its fields already taken apart (30_encoding.md R70 to R73). -/
inductive Instr where
  /-- `00E0` CLS (R140). -/
  | cls
  /-- `00EE` RET (R100). -/
  | ret
  /-- `1addr` JP addr (R101). -/
  | jp (addr : Addr)
  /-- `2addr` CALL addr (R102). -/
  | call (addr : Addr)
  /-- `3xnn` SE Vx, nn (R103). -/
  | seImm (x : Reg) (nn : Byte)
  /-- `4xnn` SNE Vx, nn (R104). -/
  | sneImm (x : Reg) (nn : Byte)
  /-- `5xy0` SE Vx, Vy (R105). -/
  | seReg (x y : Reg)
  /-- `6xnn` LD Vx, nn (R120). -/
  | ldImm (x : Reg) (nn : Byte)
  /-- `7xnn` ADD Vx, nn (R121). -/
  | addImm (x : Reg) (nn : Byte)
  /-- `8xy0` LD Vx, Vy (R122). -/
  | ldReg (x y : Reg)
  /-- `8xy1` OR Vx, Vy (R123). -/
  | orReg (x y : Reg)
  /-- `8xy2` AND Vx, Vy (R124). -/
  | andReg (x y : Reg)
  /-- `8xy3` XOR Vx, Vy (R125). -/
  | xorReg (x y : Reg)
  /-- `8xy4` ADD Vx, Vy (R126). -/
  | addReg (x y : Reg)
  /-- `8xy5` SUB Vx, Vy (R127). -/
  | subReg (x y : Reg)
  /-- `8xy7` SUBN Vx, Vy (R128). -/
  | subnReg (x y : Reg)
  /-- `9xy0` SNE Vx, Vy (R106). -/
  | sneReg (x y : Reg)
  /-- `Axxx` LD I, addr (R129). -/
  | ldI (addr : Addr)
  /-- `Dxyn` DRW Vx, Vy, n (R141); `n` counts sprite rows (log 11). -/
  | drw (x y : Reg) (n : Nat)
  deriving DecidableEq, Repr

end Sys2Proof
end

