-- ==== Sys2Proof/WellFormed.lean ====
section
/-! DEFINITION. Which instructions have an encoding: the types of the fields bound all but the sprite row count. -/

namespace Sys2Proof

/-- An instruction is well formed when its fields fit their encoding. Only the row count `n` of `Dxyn` can fail to:
it is a 4-bit field, so 20 rows cannot be encoded (30_encoding.md R73; 90_conflicts.md C8). -/
def Instr.wf : Instr → Bool
  | .cls => true
  | .ret => true
  | .jp _ => true
  | .call _ => true
  | .seImm _ _ => true
  | .sneImm _ _ => true
  | .seReg _ _ => true
  | .ldImm _ _ => true
  | .addImm _ _ => true
  | .ldReg _ _ => true
  | .orReg _ _ => true
  | .andReg _ _ => true
  | .xorReg _ _ => true
  | .addReg _ _ => true
  | .subReg _ _ => true
  | .subnReg _ _ => true
  | .sneReg _ _ => true
  | .ldI _ => true
  | .drw _ _ n => decide (n < 16)

end Sys2Proof
end

