-- ==== Sys2Proof/Decode.lean ====
section
/-! DEFINITION. From bytes to an instruction or a rejection by name, the encoder back, and the opcode map as rows
(30_encoding.md R70 to R77). -/

namespace Sys2Proof

/-- The instruction word of two bytes: the byte at the lower address is the most significant
(20_memory.md R53; D2, log 14). -/
def wordOfBytes (b1 b2 : Byte) : Word := b1 ++ b2

/-- The two bytes of a word, the one for the lower address first (20_memory.md R53). -/
def bytesOfWord (w : Word) : Byte × Byte := (w.extractLsb' 8 8, w.extractLsb' 0 8)

/-- Field o = w[15:12] (R70). -/
def opField (w : Word) : BitVec 4 := w.extractLsb' 12 4

/-- Field x = w[11:8] (R70). -/
def xField (w : Word) : Reg := (w.extractLsb' 8 4).toFin

/-- Field y = w[7:4] (R70). -/
def yField (w : Word) : Reg := (w.extractLsb' 4 4).toFin

/-- Field n = w[3:0] (R70). -/
def nField (w : Word) : BitVec 4 := w.extractLsb' 0 4

/-- Field nn = w[7:0] (R71). -/
def nnField (w : Word) : Byte := w.extractLsb' 0 8

/-- Field addr = w[11:0] (R72). -/
def addrField (w : Word) : Addr := w.extractLsb' 0 12

/-- Family 0: exactly `00E0` and `00EE` (R74, D10). -/
def decodeFamily0 (w : Word) : Option Instr :=
  if w = 0x00E0 then some .cls
  else if w = 0x00EE then some .ret
  else none

/-- Family 8: the low nibble selects the operation (R74). -/
def decodeFamily8 (w : Word) : Option Instr :=
  match nField w with
  | 0x0#4 => some (.ldReg (xField w) (yField w))
  | 0x1#4 => some (.orReg (xField w) (yField w))
  | 0x2#4 => some (.andReg (xField w) (yField w))
  | 0x3#4 => some (.xorReg (xField w) (yField w))
  | 0x4#4 => some (.addReg (xField w) (yField w))
  | 0x5#4 => some (.subReg (xField w) (yField w))
  | 0x7#4 => some (.subnReg (xField w) (yField w))
  | _ => none

/-- The decode function (R74), which reads the word only (R75). `none` is UNIMPLEMENTED (R77). -/
def decode (w : Word) : Option Instr :=
  match opField w with
  | 0x0#4 => decodeFamily0 w
  | 0x1#4 => some (.jp (addrField w))
  | 0x2#4 => some (.call (addrField w))
  | 0x3#4 => some (.seImm (xField w) (nnField w))
  | 0x4#4 => some (.sneImm (xField w) (nnField w))
  | 0x5#4 => if nField w = 0 then some (.seReg (xField w) (yField w)) else none
  | 0x6#4 => some (.ldImm (xField w) (nnField w))
  | 0x7#4 => some (.addImm (xField w) (nnField w))
  | 0x8#4 => decodeFamily8 w
  | 0x9#4 => if nField w = 0 then some (.sneReg (xField w) (yField w)) else none
  | 0xA#4 => some (.ldI (addrField w))
  | 0xD#4 => some (.drw (xField w) (yField w) (nField w).toNat)
  | _ => none

/-- Why bytes are no instruction. -/
inductive DecodeError where
  /-- Fewer than the 2 bytes that every instruction takes (R79). -/
  | truncated
  /-- The word is in the unimplemented space (R77). -/
  | unimplemented (w : Word)
  deriving DecidableEq, Repr

/-- Decoding any bytes: the instruction and the bytes after its two (R79), or a rejection by name. -/
def decodeBytes : List Byte → Except DecodeError (Instr × List Byte)
  | b1 :: b2 :: rest =>
    match decode (wordOfBytes b1 b2) with
    | some i => .ok (i, rest)
    | none => .error (.unimplemented (wordOfBytes b1 b2))
  | _ => .error .truncated

/-- A register number as its 4-bit field. -/
def regBits (x : Reg) : BitVec 4 := BitVec.ofFin x

/-- A word of family `op` that names two registers and ends in the nibble `n`. -/
def encodeXY (op : BitVec 4) (x y : Reg) (n : BitVec 4) : Word := op ++ regBits x ++ regBits y ++ n

/-- A word of family `op` that names a register and an immediate byte. -/
def encodeXNn (op : BitVec 4) (x : Reg) (nn : Byte) : Word := op ++ regBits x ++ nn

/-- A word of family `op` that holds a 12-bit address. -/
def encodeAddr (op : BitVec 4) (addr : Addr) : Word := op ++ addr

/-- The word of an instruction, from the patterns of the opcode map (R76). -/
def encode : Instr → Word
  | .cls => 0x00E0
  | .ret => 0x00EE
  | .jp addr => encodeAddr 0x1 addr
  | .call addr => encodeAddr 0x2 addr
  | .seImm x nn => encodeXNn 0x3 x nn
  | .sneImm x nn => encodeXNn 0x4 x nn
  | .seReg x y => encodeXY 0x5 x y 0x0
  | .ldImm x nn => encodeXNn 0x6 x nn
  | .addImm x nn => encodeXNn 0x7 x nn
  | .ldReg x y => encodeXY 0x8 x y 0x0
  | .orReg x y => encodeXY 0x8 x y 0x1
  | .andReg x y => encodeXY 0x8 x y 0x2
  | .xorReg x y => encodeXY 0x8 x y 0x3
  | .addReg x y => encodeXY 0x8 x y 0x4
  | .subReg x y => encodeXY 0x8 x y 0x5
  | .subnReg x y => encodeXY 0x8 x y 0x7
  | .sneReg x y => encodeXY 0x9 x y 0x0
  | .ldI addr => encodeAddr 0xA addr
  | .drw x y n => encodeXY 0xD x y (BitVec.ofNat 4 n)

/-- The bytes of an instruction as memory holds them, the lowest address first. -/
def encodeBytes (i : Instr) : List Byte := [(bytesOfWord (encode i)).1, (bytesOfWord (encode i)).2]

/-- One row of the opcode map (R76): a word belongs to the row when it agrees with `bits` on `mask`. -/
structure OpcodeRow where
  pattern : String
  bits    : Word
  mask    : Word
  deriving DecidableEq, Repr

/-- A word belongs to a row. -/
def OpcodeRow.selects (r : OpcodeRow) (w : Word) : Bool := w &&& r.mask = r.bits

/-- The row of the opcode map that an instruction stands in (R76). -/
def Instr.row : Instr → OpcodeRow
  | .cls => ⟨"00E0", 0x00E0, 0xFFFF⟩
  | .ret => ⟨"00EE", 0x00EE, 0xFFFF⟩
  | .jp _ => ⟨"1addr", 0x1000, 0xF000⟩
  | .call _ => ⟨"2addr", 0x2000, 0xF000⟩
  | .seImm _ _ => ⟨"3xnn", 0x3000, 0xF000⟩
  | .sneImm _ _ => ⟨"4xnn", 0x4000, 0xF000⟩
  | .seReg _ _ => ⟨"5xy0", 0x5000, 0xF00F⟩
  | .ldImm _ _ => ⟨"6xnn", 0x6000, 0xF000⟩
  | .addImm _ _ => ⟨"7xnn", 0x7000, 0xF000⟩
  | .ldReg _ _ => ⟨"8xy0", 0x8000, 0xF00F⟩
  | .orReg _ _ => ⟨"8xy1", 0x8001, 0xF00F⟩
  | .andReg _ _ => ⟨"8xy2", 0x8002, 0xF00F⟩
  | .xorReg _ _ => ⟨"8xy3", 0x8003, 0xF00F⟩
  | .addReg _ _ => ⟨"8xy4", 0x8004, 0xF00F⟩
  | .subReg _ _ => ⟨"8xy5", 0x8005, 0xF00F⟩
  | .subnReg _ _ => ⟨"8xy7", 0x8007, 0xF00F⟩
  | .sneReg _ _ => ⟨"9xy0", 0x9000, 0xF00F⟩
  | .ldI _ => ⟨"Axxx", 0xA000, 0xF000⟩
  | .drw _ _ _ => ⟨"Dxyn", 0xD000, 0xF000⟩

/-- The opcode map: its 19 rows in the order of R76. -/
def opcodeMap : List OpcodeRow :=
  [Instr.row .cls, Instr.row .ret, Instr.row (.jp 0), Instr.row (.call 0), Instr.row (.seImm 0 0),
   Instr.row (.sneImm 0 0), Instr.row (.seReg 0 0), Instr.row (.ldImm 0 0), Instr.row (.addImm 0 0),
   Instr.row (.ldReg 0 0)] ++
  [Instr.row (.orReg 0 0), Instr.row (.andReg 0 0), Instr.row (.xorReg 0 0), Instr.row (.addReg 0 0),
   Instr.row (.subReg 0 0), Instr.row (.subnReg 0 0), Instr.row (.sneReg 0 0), Instr.row (.ldI 0),
   Instr.row (.drw 0 0 0)]

/-- The word that stands in the host's numbering of a table row: the block's instructions have one word, so the low
`nbits` bits are it and every bit above is 0. -/
def tableWord (nbits w : Nat) : Word := BitVec.ofNat 16 (w % 2 ^ nbits)

/-- The instruction the decoder reads from a table row's bits, its two bytes laid out as memory holds them. -/
def decodeTableWord (nbits w : Nat) : Option Instr :=
  match decodeBytes [(bytesOfWord (tableWord nbits w)).1, (bytesOfWord (tableWord nbits w)).2] with
  | .ok (i, _) => some i
  | .error _ => none

end Sys2Proof
end

