-- ==== Sys2Proof/Machine/State.lean ====
section
/-! DEFINITION. The state of the block (10_state.md), the reasons a step can stop, and the state after reset. -/

namespace Sys2Proof.Machine

/-- The conditions that are fatal to a running block (60_exceptions.md R168). -/
inductive FaultCode where
  /-- PC above 0xFFE (R163). -/
  | fetchOutOfRange
  /-- The fetched word is in the unimplemented space (R161). -/
  | unimplementedOpcode
  /-- `00EE` on an empty stack (R162). -/
  | stackUnderflow
  /-- `2addr` at STACK_LIMIT (R165). -/
  | stackOverflow
  /-- `Dxyn` whose sprite rows pass 0xFFF (R164). -/
  | spriteReadOutOfRange
  deriving DecidableEq, Repr

/-- What the fault record holds (10_state.md R31): the code, the PC of the faulting Cycle, and the instruction word
when one was fetched. -/
structure FaultRecord where
  code : FaultCode
  pc   : Word
  word : Option Word
  deriving DecidableEq, Repr

/-- The errors of Construct, which produce no state (60_exceptions.md R166, R167). -/
inductive ConstructError where
  /-- A program longer than 3584 bytes, with its length (R166). -/
  | programTooLarge (length : Nat)
  /-- A custom font that is not 80 bytes, with its length (R167). -/
  | fontSizeInvalid (length : Nat)
  deriving DecidableEq, Repr

/-- The main memory as the list of the bytes that differ from what an unlisted address reads as, by rising address
(20_memory.md R50; log 8). -/
abbrev Memory := List Host.Cell

/-- The display bitmap as the list of its nonzero bytes, by rising index 0 to 255 (10_state.md R30; log 8). -/
abbrev Display := List Host.Cell

/-- An output of the block to its host (60_exceptions.md R182, R183). -/
inductive Event where
  /-- Draw, with a copy of the whole display. -/
  | draw (snapshot : Display)
  /-- Beep, without payload. -/
  | beep
  deriving DecidableEq, Repr

/-- A command of the host (60_exceptions.md R180). -/
inductive Command where
  /-- Construct with the program bytes, the custom font if any, and the time (R190, R191). -/
  | construct (program : List Byte) (font : Option (List Byte)) (now : Time)
  /-- Cycle: one instruction (30_encoding.md R82). -/
  | cycle
  /-- Tick: the timers count down (R174). -/
  | tick
  /-- Update of the optional Timing Driver at the time `now` (R177). -/
  | update (now : Time)
  /-- Read the memory port (R184). -/
  | readMemory
  /-- Read the display port (R184). -/
  | readDisplay
  /-- Read the fault record (10_state.md R31). -/
  | readFault
  deriving DecidableEq, Repr

/-- Everything the block holds between commands (10_state.md R20 to R36), the open parameters (00_scope.md R7), and
the commands in and the events out of its host. -/
structure State where
  /-- The general registers V0 to VF; VF is also the flag (R20, R21). -/
  v       : Vector Byte 16
  /-- The index register I (R23). -/
  i       : Word
  /-- The program counter (R24). -/
  pc      : Word
  /-- The call stack, its top the last element (R26, 00_scope.md R11). -/
  stack   : List Word
  /-- The delay timer DT (R27). -/
  dt      : Byte
  /-- The sound timer ST (R28). -/
  st      : Byte
  /-- The 4096-byte memory (R29). -/
  mem     : Memory
  /-- The display (R30). -/
  disp    : Display
  /-- The fault record (R31). -/
  fault   : Option FaultRecord
  /-- The Timing Driver's time of the last Cycle it ran (R34, 60_exceptions.md R177). -/
  tExec   : Time
  /-- The Timing Driver's time of the last Tick it ran (R34, 60_exceptions.md R177). -/
  tTimer  : Time
  /-- The open parameters, which nothing changes (log 4). -/
  params  : Config.Params
  /-- The model's own: the events emitted since construction, oldest first (log 3). -/
  events  : List Event
  /-- The model's own: the commands the host has chosen to issue next (log 1). -/
  pending : List Command
  deriving DecidableEq, Repr

/-- Why the machine stops. -/
inductive Fault where
  /-- Raised by Cycle and by Tick on a stopped block, which accepts neither until Construct (60_exceptions.md R160).
  Safe: the model has no move where the block makes none (log 2). -/
  | stopped (r : FaultRecord)
  deriving DecidableEq, Repr

/-- Why the model gives a command no meaning. -/
inductive Refusal where
  /-- Raised by exec's arm for an instruction without a meaning; no arm raises it. Safe. -/
  | notModelled (mnemonic : String)
  /-- Raised by Construct, which returns its error and produces no state (60_exceptions.md R166, R167; D25). Safe: the
  spec has no state there either. -/
  | constructError (e : ConstructError)
  deriving DecidableEq, Repr

/-- The block right after Construct with the empty program and the built-in font (10_state.md R35; log 6), at time 0
(log 7), with the source's parameters (log 4). The font bytes are what unlisted addresses read as. -/
def State.reset : State :=
  { v := Vector.replicate 16 0
    i := 0
    pc := 0x200
    stack := []
    dt := 0
    st := 0
    mem := []
    disp := []
    fault := none
    tExec := 0
    tTimer := 0
    params := Config.Params.source
    events := []
    pending := [] }

end Sys2Proof.Machine
end

