-- ==== Sys2Proof/Machine/Ops.lean ====
section
/-! DEFINITION. The named operations every meaning is built from: the two stores, the registers, the call stack, the
fetch, a fatal condition, and Construct, the one way out of it. -/

namespace Sys2Proof.Machine

/-! ## A sparse store of bytes -/

/-- The byte listed for an address, if any. -/
def cellLookup : List Host.Cell → Nat → Option Byte
  | [], _ => none
  | c :: cs, a => if c.1 = a then some c.2 else cellLookup cs a

/-- List a byte for an address, in its place by rising address. -/
def cellPut : List Host.Cell → Nat → Byte → List Host.Cell
  | [], a, b => [(a, b)]
  | c :: cs, a, b =>
    if a < c.1 then (a, b) :: c :: cs
    else if a = c.1 then (a, b) :: cs
    else c :: cellPut cs a b

/-- List nothing for an address. -/
def cellDrop (cs : List Host.Cell) (a : Nat) : List Host.Cell := cs.filter (fun c => c.1 ≠ a)

/-- Give an address a byte where `rest` is what an unlisted address reads as: the canonical form lists no such byte. -/
def cellSet (rest : Nat → Byte) (cs : List Host.Cell) (a : Nat) (b : Byte) : List Host.Cell :=
  if b = rest a then cellDrop cs a else cellPut cs a b

/-- The canonical form of a store of `size` bytes: addresses rise, exist, and list no byte that `rest` gives. -/
abbrev cellsWf (rest : Nat → Byte) (size : Nat) (cs : List Host.Cell) : Prop :=
  cs.Pairwise (fun c d => c.1 < d.1) ∧ ∀ c ∈ cs, c.1 < size ∧ c.2 ≠ rest c.1

/-! ## Memory -/

/-- What an unlisted address reads as: the reset contents of memory, the built-in font at 0x050 to 0x09F and zero
elsewhere (10_state.md R35, 20_memory.md R51). -/
def Memory.unlisted (a : Nat) : Byte :=
  if h : Config.fontBase ≤ a ∧ a < Config.fontBase + Config.fontSize then
    Config.defaultFont[a - Config.fontBase]'(by simp only [Config.fontBase, Config.fontSize] at *; omega)
  else 0

/-- The byte `mem[a]`; meaningful for an address that exists, which `read?` checks. -/
def Memory.byte (m : Memory) (a : Nat) : Byte := (cellLookup m a).getD (Memory.unlisted a)

/-- MemRead(a, 1): the byte at an address 0x000 to 0xFFF; no byte exists above (20_memory.md R54). -/
def Memory.read? (m : Memory) (a : Nat) : Option Byte :=
  if a < Config.memSize then some (m.byte a) else none

/-- The `n` bytes from `a` on, without address wrap (D30); none when one of them does not exist, which is exactly when
`n > 0` and `a + n - 1 > 0xFFF` (42_display.md R142). -/
def Memory.readBytes (m : Memory) : Nat → Nat → Option (List Byte)
  | _, 0 => some []
  | a, n + 1 =>
    match m.read? a with
    | none => none
    | some b => (Memory.readBytes m (a + 1) n).map (b :: ·)

/-- MemWrite(a, 1, b), used by Construct alone (00_scope.md R12), which writes no address above 0xFFF (log 8). -/
def Memory.write (m : Memory) (a : Nat) (b : Byte) : Memory :=
  if a < Config.memSize then cellSet Memory.unlisted m a b else m

/-- Write bytes at rising addresses from `a` on. -/
def Memory.writeBytes : Memory → Nat → List Byte → Memory
  | m, _, [] => m
  | m, a, b :: bs => Memory.writeBytes (m.write a b) (a + 1) bs

/-- The canonical form of memory (log 8). -/
abbrev Memory.wf (m : Memory) : Prop := cellsWf Memory.unlisted Config.memSize m

/-! ## Display -/

/-- What an unlisted display byte reads as. -/
def Display.unlisted (_ : Nat) : Byte := 0

/-- The byte `disp[j]` (10_state.md R30). -/
def Display.byte (d : Display) (j : Nat) : Byte := (cellLookup d j).getD (Display.unlisted j)

/-- `disp[j] <- b`, for an index 0 to 255. -/
def Display.setByte (d : Display) (j : Nat) (b : Byte) : Display :=
  if j < Config.displayBytes then cellSet Display.unlisted d j b else d

/-- The pixel at column `c` and row `r`: bit 7 - (c mod 8) of byte r * 8 + c / 8 (10_state.md R30; D13, log 18). -/
def Display.pixel (d : Display) (c r : Nat) : Bool :=
  (d.byte (r * Config.rowBytes + c / 8)).getLsbD (7 - c % 8)

/-- The display with every byte 0. -/
def Display.clear : Display := []

/-- The canonical form of the display (log 8). -/
abbrev Display.wf (d : Display) : Prop := cellsWf Display.unlisted Config.displayBytes d

/-! ## Updates of the state -/

namespace State

/-- Read V[x] (10_state.md R20). -/
def reg (s : State) (x : Reg) : Byte := s.v[x]

/-- V[x] <- b. -/
def setReg (s : State) (x : Reg) (b : Byte) : State := { s with v := s.v.set x b }

/-- I <- w. -/
def setIndex (s : State) (w : Word) : State := { s with i := w }

/-- PC <- w. -/
def setPc (s : State) (w : Word) : State := { s with pc := w }

/-- The call stack becomes `l`. -/
def setStack (s : State) (l : List Word) : State := { s with stack := l }

/-- DT and ST become `d` and `t`. -/
def setTimers (s : State) (d t : Byte) : State := { s with dt := d, st := t }

/-- The memory becomes `m`. -/
def setMem (s : State) (m : Memory) : State := { s with mem := m }

/-- The display becomes `d`. -/
def setDisp (s : State) (d : Display) : State := { s with disp := d }

/-- The fault record becomes `f`. -/
def setFault (s : State) (f : Option FaultRecord) : State := { s with fault := f }

/-- t_exec <- t. -/
def setTExec (s : State) (t : Time) : State := { s with tExec := t }

/-- t_timer <- t. -/
def setTTimer (s : State) (t : Time) : State := { s with tTimer := t }

/-- emit e (00_scope.md R12). -/
def emit (s : State) (e : Event) : State := { s with events := s.events ++ [e] }

/-- The host's coming commands become `q`. -/
def setPending (s : State) (q : List Command) : State := { s with pending := q }

/-- The generic advance of the PC by one instruction (30_encoding.md R82; log 9). -/
def advance (s : State) : State := s.setPc (s.pc + 2)

/-- push(w) (00_scope.md R11). -/
def push (s : State) (w : Word) : State := s.setStack (s.stack ++ [w])

/-- pop(): the top of the stack and the state without it, if the stack is not empty (00_scope.md R11). -/
def pop (s : State) : Option (Word × State) :=
  match s.stack.getLast? with
  | none => none
  | some w => some (w, s.setStack s.stack.dropLast)

end State

/-! ## Fetch -/

/-- The instruction word at the PC; none when PC > 0xFFE (20_memory.md R53, R55). -/
def fetchWord (s : State) : Option Word :=
  match s.mem.read? s.pc.toNat, s.mem.read? (s.pc.toNat + 1) with
  | some b1, some b2 => some (wordOfBytes b1 b2)
  | _, _ => none

/-- Lay a word out where the next Cycle fetches, in a block that accepts a Cycle and whose host issues one next. -/
def placeFetchWord (w : Word) (s : State) : State :=
  let pc : Word := if s.pc.toNat + 1 < Config.memSize then s.pc else BitVec.ofNat 16 Config.programBase
  let q : List Command := match s.pending with
    | [] => []
    | c :: cs => .cycle :: c :: cs
  (((s.setPc pc).setMem (s.mem.writeBytes pc.toNat [(bytesOfWord w).1, (bytesOfWord w).2])).setFault none).setPending q

/-! ## Fatal conditions -/

/-- The number of a fault code (60_exceptions.md R168). -/
def FaultCode.number : FaultCode → Nat
  | .fetchOutOfRange => 1
  | .unimplementedOpcode => 2
  | .stackUnderflow => 3
  | .stackOverflow => 4
  | .spriteReadOutOfRange => 5

/-- The number of an error of Construct (60_exceptions.md R168). -/
def ConstructError.number : ConstructError → Nat
  | .programTooLarge _ => 16
  | .fontSizeInvalid _ => 17

/-- raise Fault(code, info) in a Cycle that started in `s`: every write of the Cycle is discarded, the PC advance
included, and only the fault record is set (60_exceptions.md R160; log 2, log 23). -/
def raise (code : FaultCode) (word : Option Word) (s : State) : Host.Outcome State Fault Refusal :=
  .next (s.setFault (some { code := code, pc := s.pc, word := word }))

/-! ## Construct -/

/-- The memory that Construct loads: zero, then the font at 0x050, then the program at 0x200
(70_reset_and_hazards.md R191). Without a custom font the font bytes are what unlisted addresses read as. -/
def loadMemory (program : List Byte) (font : Option (List Byte)) : Memory :=
  Memory.writeBytes (Memory.writeBytes [] Config.fontBase (font.getD [])) Config.programBase program

/-- The length of a custom font that is not 80 bytes (60_exceptions.md R167). -/
def badFontLength : Option (List Byte) → Option Nat
  | none => none
  | some f => if f.length = Config.fontSize then none else some f.length

/-- Construct(program, font) at the time `now`: the only way out of a fatal condition
(70_reset_and_hazards.md R190 to R192). The program's length is checked before the font's (60_exceptions.md R169). -/
def construct (p : Config.Params) (program : List Byte) (font : Option (List Byte)) (now : Time) :
    Except ConstructError State :=
  if Config.programMax < program.length then .error (.programTooLarge program.length)
  else
    match badFontLength font with
    | some n => .error (.fontSizeInvalid n)
    | none =>
      .ok { State.reset with
        mem := loadMemory program font
        tExec := now
        tTimer := now
        params := p }

end Sys2Proof.Machine
end

