-- ==== Sys2Proof/Machine/Flags.lean ====
section
/-! DEFINITION. The results that come with a flag, and how a result and its flag are written (41_register_alu.md). -/

namespace Sys2Proof.Machine

/-- A flag as the byte VF holds: 1 or 0 (10_state.md R33). -/
def flagByte (f : Bool) : Byte := if f then 1 else 0

/-- Register VF (10_state.md R21). -/
def vf : Reg := 15

/-- The 9-bit sum taken modulo 256, and the carry: the sum is at least 256 (R126). -/
def addWithCarry (a b : Byte) : Byte × Bool :=
  let s := a.toNat + b.toNat
  (BitVec.ofNat 8 (s % 256), decide (256 ≤ s))

/-- `a - b` modulo 256, and the flag: `a` is strictly greater than `b` (R127, R128; at equality the result is 0 and the
flag 0, 90_conflicts.md C2). -/
def subWithFlag (a b : Byte) : Byte × Bool :=
  if b.toNat < a.toNat then (BitVec.ofNat 8 (a.toNat - b.toNat), true)
  else (BitVec.ofNat 8 ((256 - (b.toNat - a.toNat)) % 256), false)

/-- V[x] is written first and VF after it, so that with x = 15 the flag stays (R131; D7, log 16). -/
def State.setRegFlag (s : State) (x : Reg) (r : Byte × Bool) : State :=
  (s.setReg x r.1).setReg vf (flagByte r.2)

end Sys2Proof.Machine
end

