-- ==== Sys2Proof/Machine/Operands.lean ====
section
/-! DEFINITION. The operand forms: zero-extended addresses, skips, and the sprite's start position. -/

namespace Sys2Proof.Machine

/-- zext_16 of an address field: absolute, neither relative nor scaled (30_encoding.md R72). -/
def zext16 (addr : Addr) : Word := addr.setWidth 16

/-- After the generic advance, a further 2 when the condition holds (40_control_flow.md R103 to R106). The skipped
word is not fetched. -/
def State.skipIf (s : State) (c : Bool) : State := if c then s.advance.advance else s.advance

/-- The sprite's start column: the register masked with WIDTH - 1 (42_display.md R143). -/
def startColumn (b : Byte) : Nat := (b &&& 63).toNat

/-- The sprite's start row: the register masked with HEIGHT - 1 (42_display.md R143). -/
def startRow (b : Byte) : Nat := (b &&& 31).toNat

end Sys2Proof.Machine
end

