-- ==== Sys2Proof/Machine/Control.lean ====
section
/-! DEFINITION. The meanings of return, jump, call and the four skips (40_control_flow.md). Each takes the state in
which the Cycle started, so that PC is pc0; a fatal condition leaves that state but for the fault record. -/

namespace Sys2Proof.Machine

/-- `00EE` RET (R100). -/
def execRet (s : State) : Host.Outcome State Fault Refusal :=
  match s.pop with
  | none => raise .stackUnderflow (some (encode .ret)) s
  | some (ra, t) => .next (t.setPc ra)

/-- `1addr` JP addr (R101). -/
def execJp (addr : Addr) (s : State) : Host.Outcome State Fault Refusal :=
  .next (s.setPc (zext16 addr))

/-- `2addr` CALL addr (R102): the pushed address is that of the next instruction. -/
def execCall (addr : Addr) (s : State) : Host.Outcome State Fault Refusal :=
  if s.params.stackLimit = some s.stack.length then raise .stackOverflow (some (encode (.call addr))) s
  else .next ((s.push s.advance.pc).setPc (zext16 addr))

/-- `3xnn` SE Vx, nn (R103). -/
def execSeImm (x : Reg) (nn : Byte) (s : State) : Host.Outcome State Fault Refusal :=
  .next (s.skipIf (s.reg x == nn))

/-- `4xnn` SNE Vx, nn (R104). -/
def execSneImm (x : Reg) (nn : Byte) (s : State) : Host.Outcome State Fault Refusal :=
  .next (s.skipIf (s.reg x != nn))

/-- `5xy0` SE Vx, Vy (R105). -/
def execSeReg (x y : Reg) (s : State) : Host.Outcome State Fault Refusal :=
  .next (s.skipIf (s.reg x == s.reg y))

/-- `9xy0` SNE Vx, Vy (R106). -/
def execSneReg (x y : Reg) (s : State) : Host.Outcome State Fault Refusal :=
  .next (s.skipIf (s.reg x != s.reg y))

end Sys2Proof.Machine
end

