-- ==== Sys2Proof/Machine/Blit.lean ====
section
/-! DEFINITION. The sprite XOR-blit engine: one row, then all rows with clipping and collision (42_display.md). -/

namespace Sys2Proof.Machine

/-- XOR a mask into one display byte; the flag says whether a set pixel met a set mask bit (R145, R146). -/
def xorByte (d : Display) (j : Nat) (mask : Byte) : Display × Bool :=
  (d.setByte j (d.byte j ^^^ mask), d.byte j &&& mask != 0)

/-- Draw the sprite row byte `b` from column `cx` on in row `r` (R145): its left part goes into the byte of the column,
and the overflow bits into the next byte when that byte lies in the same row; else they are dropped. -/
def blitRow (d : Display) (cx r : Nat) (b : Byte) : Display × Bool :=
  let xb := cx / 8
  let off := cx % 8
  let j := r * Config.rowBytes + xb
  let left := xorByte d j (b >>> off)
  if off ≠ 0 ∧ xb + 1 < Config.rowBytes then
    let right := xorByte left.1 (j + 1) (b <<< (8 - off))
    (right.1, left.2 || right.2)
  else left

/-- Draw the sprite rows from row `r` on; the rows from HEIGHT on are clipped (R144). The flag collects the collisions
of the drawn rows (R146). -/
def drawRows (d : Display) (cx r : Nat) : List Byte → Display × Bool
  | [] => (d, false)
  | b :: bs =>
    if r < Config.height then
      let row := blitRow d cx r b
      let rest := drawRows row.1 cx (r + 1) bs
      (rest.1, row.2 || rest.2)
    else (d, false)

end Sys2Proof.Machine
end

