-- ==== Sys2Proof/Machine/Display.lean ====
section
/-! DEFINITION. The meanings of clear screen and sprite draw (42_display.md). -/

namespace Sys2Proof.Machine

/-- `00E0` CLS (R140): no Draw event (D14, log 19). -/
def execCls (s : State) : Host.Outcome State Fault Refusal :=
  .next (s.advance.setDisp Display.clear)

/-- `Dxyn` DRW Vx, Vy, n (R141). The coordinates and I are read before VF is written (R143; D8, log 17); the sprite's
bytes must all exist, those of clipped rows too (R142; D9, log 12); VF takes the collision flag (R146) and the Draw
event carries the display as it is then (R147). -/
def execDrw (x y : Reg) (n : Nat) (s : State) : Host.Outcome State Fault Refusal :=
  match s.mem.readBytes s.i.toNat n with
  | none => raise .spriteReadOutOfRange (some (encode (.drw x y n))) s
  | some rows =>
    let drawn := drawRows s.disp (startColumn (s.reg x)) (startRow (s.reg y)) rows
    .next (((s.advance.setDisp drawn.1).setReg vf (flagByte drawn.2)).emit (.draw drawn.1))

end Sys2Proof.Machine
end

