-- ==== Sys2Proof/Machine/Commands.lean ====
section
/-! DEFINITION. The commands of the host: Cycle, Tick, Update, Construct and the read ports (60_exceptions.md R180). -/

namespace Sys2Proof.Machine

/-- The Cycle (30_encoding.md R82): not accepted by a stopped block (60_exceptions.md R160); then the fetch range, the
decoding and the instruction's own condition are checked in that order (R169). -/
def cycle (s : State) : Host.Outcome State Fault Refusal :=
  match s.fault with
  | some r => .fault (.stopped r)
  | none =>
    match fetchWord s with
    | none => raise .fetchOutOfRange none s
    | some w =>
      match decode w with
      | none => raise .unimplementedOpcode (some w) s
      | some i => exec i s

/-- A timer counts down and stays at zero (60_exceptions.md R174). -/
def countDown (t : Byte) : Byte := if 0 < t.toNat then t - 1 else t

/-- The Tick (60_exceptions.md R174): not accepted by a stopped block; a Beep while ST is nonzero, before it counts. -/
def tick (s : State) : Host.Outcome State Fault Refusal :=
  match s.fault with
  | some r => .fault (.stopped r)
  | none =>
    let t := if 0 < s.st.toNat then s.emit .beep else s
    .next (t.setTimers (countDown s.dt) (countDown s.st))

/-- The timer part of Update (60_exceptions.md R177). -/
def updateTimer (now : Time) (s : State) : Host.Outcome State Fault Refusal :=
  if s.params.timerPeriod < now - s.tTimer then
    match tick s with
    | .next t => .next (t.setTTimer now)
    | .fault r => .fault r
    | .refused r => .refused r
  else .next s

/-- Update at the time `now` (60_exceptions.md R177, R178): at most one Cycle, then at most one Tick. A Cycle that
faults stops the Update there (log 13). -/
def update (now : Time) (s : State) : Host.Outcome State Fault Refusal :=
  if s.params.execPeriod < now - s.tExec then
    match cycle s with
    | .next t => if t.fault.isSome then .next t else updateTimer now (t.setTExec now)
    | .fault r => .fault r
    | .refused r => .refused r
  else updateTimer now s

/-- The memory port: a copy of the 4096 bytes (60_exceptions.md R184). -/
def State.memoryPort (s : State) : List Byte := (List.range Config.memSize).map s.mem.byte

/-- The display port: a copy of the 256 bytes (60_exceptions.md R184). -/
def State.displayPort (s : State) : List Byte := (List.range Config.displayBytes).map s.disp.byte

/-- The fault port (60_exceptions.md R180, D28). -/
def State.faultPort (s : State) : Option FaultRecord := s.fault

/-- One command on the block. Construct ignores the state but for the parameters and the host's coming commands
(70_reset_and_hazards.md R192; log 24); a read changes nothing (60_exceptions.md R184; log 25). -/
def runCommand (c : Command) (s : State) : Host.Outcome State Fault Refusal :=
  match c with
  | .construct program font now =>
    match construct s.params program font now with
    | .ok t => .next (t.setPending s.pending)
    | .error e => .refused (.constructError e)
  | .cycle => cycle s
  | .tick => tick s
  | .update now => update now s
  | .readMemory => .next s
  | .readDisplay => .next s
  | .readFault => .next s

/-- The next command the host issues: the first pending one, and a Cycle when none is listed (log 1). -/
def nextCommand (s : State) : Command := s.pending.headD .cycle

end Sys2Proof.Machine
end

