-- ==== Sys2Proof/Machine/Step.lean ====
section
/-! DEFINITION. One step of the machine: one command of the host, taken from the pending ones (log 1). -/

namespace Sys2Proof.Machine

/-- Take the host's next command and run it to completion (20_memory.md R60). -/
def step (s : State) : Host.Outcome State Fault Refusal :=
  runCommand (nextCommand s) (s.setPending s.pending.tail)

/-- `s` with the word of a table row laid out where the next step fetches (log 6). -/
def State.withFetchWord (s : State) (nbits w : Nat) : State := placeFetchWord (tableWord nbits w) s

end Sys2Proof.Machine
end

