-- ==== Sys2Proof/Safety.lean ====
section
/-! DEFINITION. The terms claims use: what an instruction leaves unchanged, and the invariant of the block. -/

namespace Sys2Proof.Machine

/-- What no instruction that completes writes, and every register but those listed: the timers, every byte of memory,
the fault record, the Timing Driver's times, the parameters and the host's coming commands. -/
structure KeepsCommon (written : List Reg) (s t : State) : Prop where
  reg     : ∀ z, z ∉ written → t.reg z = s.reg z
  dt      : t.dt = s.dt
  st      : t.st = s.st
  mem     : ∀ a, t.mem.byte a = s.mem.byte a
  fault   : t.fault = s.fault
  tExec   : t.tExec = s.tExec
  tTimer  : t.tTimer = s.tTimer
  params  : t.params = s.params
  pending : t.pending = s.pending

/-- Beside that, the display is unchanged and no event is emitted. -/
structure KeepsDisplay (written : List Reg) (s t : State) : Prop extends KeepsCommon written s t where
  disp   : ∀ j, t.disp.byte j = s.disp.byte j
  events : t.events = s.events

/-- Beside that, the index register and the call stack are unchanged: only the listed registers and the PC may
change. -/
structure KeepsRest (written : List Reg) (s t : State) : Prop extends KeepsDisplay written s t where
  i     : t.i = s.i
  stack : t.stack = s.stack

/-- The pixel (c, r) is in the part of an n-row sprite at (cx, cy) that lies on the display
(42_display.md R144, R145). -/
abbrev inFootprint (cx cy n c r : Nat) : Prop := cx ≤ c ∧ c < cx + 8 ∧ c < 64 ∧ cy ≤ r ∧ r < cy + n ∧ r < 32

/-- The bit that an n-row sprite at (cx, cy), read from `base` on, has for the pixel (c, r): the most significant bit
of a row is its leftmost pixel (42_display.md R148). -/
def spriteBit (s : State) (cx cy base n c r : Nat) : Bool :=
  decide (inFootprint cx cy n c r) && (s.mem.byte (base + (r - cy))).getLsbD (7 - (c - cx))

/-- The sprite bit that `Dxyn` in state `s` XORs into the pixel (c, r). -/
def drawnBit (s : State) (x y : Reg) (n c r : Nat) : Bool :=
  spriteBit s (startColumn (s.reg x)) (startRow (s.reg y)) s.i.toNat n c r

/-- The condition a Cycle of a running block raises, if any, in the order it checks them: the fetch range, the decoding,
then the one condition of its instruction (60_exceptions.md R169). A Cycle is safe where this is `none`. -/
def faultOfCycle (s : State) : Option FaultCode :=
  if 0xFFE < s.pc.toNat then some .fetchOutOfRange
  else
    match decode (wordOfBytes (s.mem.byte s.pc.toNat) (s.mem.byte (s.pc.toNat + 1))) with
    | none => some .unimplementedOpcode
    | some .ret => if s.stack = [] then some .stackUnderflow else none
    | some (.call _) => if s.params.stackLimit = some s.stack.length then some .stackOverflow else none
    | some (.drw _ _ n) => if 0 < n ∧ 0xFFF < s.i.toNat + n - 1 then some .spriteReadOutOfRange else none
    | some _ => none

/-- The general register an instruction writes as its destination (10_state.md R22). -/
def destReg : Instr → Option Reg
  | .cls => none
  | .ret => none
  | .jp _ => none
  | .call _ => none
  | .seImm _ _ => none
  | .sneImm _ _ => none
  | .seReg _ _ => none
  | .ldImm x _ => some x
  | .addImm x _ => some x
  | .ldReg x _ => some x
  | .orReg x _ => some x
  | .andReg x _ => some x
  | .xorReg x _ => some x
  | .addReg x _ => some x
  | .subReg x _ => some x
  | .subnReg x _ => some x
  | .sneReg _ _ => none
  | .ldI _ => none
  | .drw _ _ _ => none

/-- The instructions that write VF as a flag (10_state.md R33). -/
def setsFlag : Instr → Bool
  | .addReg _ _ => true
  | .subReg _ _ => true
  | .subnReg _ _ => true
  | .drw _ _ _ => true
  | .cls => false
  | .ret => false
  | .jp _ => false
  | .call _ => false
  | .seImm _ _ => false
  | .sneImm _ _ => false
  | .seReg _ _ => false
  | .ldImm _ _ => false
  | .addImm _ _ => false
  | .ldReg _ _ => false
  | .orReg _ _ => false
  | .andReg _ _ => false
  | .xorReg _ _ => false
  | .sneReg _ _ => false
  | .ldI _ => false

/-- What holds of the block after Construct and after every command. -/
structure State.Inv (s : State) : Prop where
  /-- Memory is in canonical form (log 8). -/
  mem_wf     : s.mem.wf
  /-- The display is in canonical form: only bytes 0 to 255 (10_state.md R30; log 8). -/
  disp_wf    : s.disp.wf
  /-- The upper four bits of I are 0 (10_state.md R23). -/
  index_le   : s.i.toNat ≤ 0xFFF
  /-- The PC never exceeds 0x1002 (10_state.md R25). -/
  pc_le      : s.pc.toNat ≤ 0x1002
  /-- A pushed return address is at most 0x1000 (40_control_flow.md R102). -/
  stack_le   : ∀ w ∈ s.stack, w.toNat ≤ 0x1000
  /-- The stack holds no more entries than STACK_LIMIT (40_control_flow.md R102). -/
  depth_le   : ∀ k, s.params.stackLimit = some k → s.stack.length ≤ k
  /-- PC of a stopped block is that of the faulting Cycle (60_exceptions.md R160, R170). -/
  fault_pc   : ∀ r, s.fault = some r → r.pc = s.pc
  /-- The record lacks the word exactly when none was fetched (10_state.md R31). -/
  fault_word : ∀ r, s.fault = some r → (r.word = none ↔ r.code = .fetchOutOfRange)
  /-- Every Draw event carried a display in canonical form (60_exceptions.md R182). -/
  events_wf  : ∀ d, Event.draw d ∈ s.events → d.wf

end Sys2Proof.Machine
end

