-- ==== Sys2Proof/Certificates/Slice0/Obligations.lean ====
section
/-! DEFINITION. The statements for the provers. Each docstring names what of spec/ it formalises; a clause that rests on
a decision of spec/92_eei_decisions.md or on an entry of the assumption log says so. -/

open Sys2Proof Sys2Proof.Machine

/-! ## Encoding -/

/-- One word of every row of the opcode map, written out from its pattern (30_encoding.md R76), as two bytes with the
more significant one first (D2, log 14). -/
def Obligations.WordsOfTheOpcodeMapDecode : Prop :=
  ∀ rest : List Byte,
    (decodeBytes (0x00 :: 0xE0 :: rest) = .ok (.cls, rest) ∧
     decodeBytes (0x00 :: 0xEE :: rest) = .ok (.ret, rest) ∧
     decodeBytes (0x12 :: 0x34 :: rest) = .ok (.jp 0x234, rest) ∧
     decodeBytes (0x2A :: 0xBC :: rest) = .ok (.call 0xABC, rest) ∧
     decodeBytes (0x34 :: 0x56 :: rest) = .ok (.seImm 4 0x56, rest) ∧
     decodeBytes (0x4E :: 0xFD :: rest) = .ok (.sneImm 14 0xFD, rest) ∧
     decodeBytes (0x51 :: 0x20 :: rest) = .ok (.seReg 1 2, rest) ∧
     decodeBytes (0x6A :: 0x3C :: rest) = .ok (.ldImm 10 0x3C, rest) ∧
     decodeBytes (0x7F :: 0x01 :: rest) = .ok (.addImm 15 1, rest)) ∧
    (decodeBytes (0x81 :: 0x20 :: rest) = .ok (.ldReg 1 2, rest) ∧
     decodeBytes (0x81 :: 0x21 :: rest) = .ok (.orReg 1 2, rest) ∧
     decodeBytes (0x81 :: 0x22 :: rest) = .ok (.andReg 1 2, rest) ∧
     decodeBytes (0x81 :: 0x23 :: rest) = .ok (.xorReg 1 2, rest) ∧
     decodeBytes (0x81 :: 0x24 :: rest) = .ok (.addReg 1 2, rest) ∧
     decodeBytes (0x81 :: 0x25 :: rest) = .ok (.subReg 1 2, rest) ∧
     decodeBytes (0x81 :: 0x27 :: rest) = .ok (.subnReg 1 2, rest) ∧
     decodeBytes (0x91 :: 0x20 :: rest) = .ok (.sneReg 1 2, rest) ∧
     decodeBytes (0xA0 :: 0x50 :: rest) = .ok (.ldI 0x050, rest) ∧
     decodeBytes (0xD1 :: 0x2F :: rest) = .ok (.drw 1 2 15, rest))

/-- Decoding the word, or the two bytes, of a well-formed instruction gives it back, with every operand at every value
its field admits (30_encoding.md R70 to R76). -/
def Obligations.DecodeOfEncode : Prop :=
  ∀ i : Instr, i.wf = true →
    decode (encode i) = some i ∧ ∀ rest : List Byte, decodeBytes (encodeBytes i ++ rest) = .ok (i, rest)

/-- A word that decodes has one meaning: the instruction it decodes to is well formed and encodes to that word
(30_encoding.md R74, R76). -/
def Obligations.EncodeOfDecode : Prop :=
  ∀ (w : Word) (i : Instr), decode w = some i → i.wf = true ∧ encode i = w

/-- The decode function and the opcode map agree: a word that decodes is selected by its instruction's row and by no
other, and a word that does not is selected by no row (30_encoding.md R74, R76). -/
def Obligations.DecodeAgreesWithOpcodeMap : Prop :=
  ∀ w : Word,
    (∀ i, decode w = some i → ∀ r ∈ opcodeMap, (r.selects w = true ↔ r = i.row)) ∧
    (decode w = none ↔ ∀ r ∈ opcodeMap, r.selects w = false)

/-- The unimplemented words are those of the families' table of 30_encoding.md R77 (exact matching: D10), and the
decoder rejects them, and only too few bytes beside, by name. -/
def Obligations.UnimplementedWords : Prop :=
  ∀ b1 b2 : Byte, ∀ rest : List Byte,
    (decodeBytes (b1 :: b2 :: rest) = .error (.unimplemented (wordOfBytes b1 b2)) ↔
      (b1.toNat / 16 = 0x0 ∧ ¬ (b1 = 0x00 ∧ (b2 = 0xE0 ∨ b2 = 0xEE))) ∨
      (b1.toNat / 16 = 0x5 ∧ b2.toNat % 16 ≠ 0) ∨
      (b1.toNat / 16 = 0x8 ∧ (b2.toNat % 16 = 6 ∨ 8 ≤ b2.toNat % 16)) ∨
      (b1.toNat / 16 = 0x9 ∧ b2.toNat % 16 ≠ 0) ∨
      b1.toNat / 16 = 0xB ∨ b1.toNat / 16 = 0xC ∨ b1.toNat / 16 = 0xE ∨ b1.toNat / 16 = 0xF) ∧
    decodeBytes [b1] = .error .truncated ∧ decodeBytes [] = .error .truncated

/-! ## Reset and Construct -/

/-- What reset leaves (10_state.md R35). The built-in font is the parameter of log 5; that reset is Construct of the
empty program is log 6, the times 0 are log 7, the parameters log 4, and the empty lists of events and commands
log 3 and log 1: those are the model's choices. -/
def Obligations.ResetLeavesTheConstructionState : Prop :=
  (∀ z, State.reset.reg z = 0) ∧ State.reset.i = 0 ∧ State.reset.pc = 0x200 ∧ State.reset.stack = [] ∧
  State.reset.dt = 0 ∧ State.reset.st = 0 ∧ State.reset.fault = none ∧
  (∀ a, a ≤ 0xFFF → (a < 0x050 ∨ 0x09F < a) → State.reset.mem.byte a = 0) ∧
  (∀ k, (h : k < 80) → State.reset.mem.byte (0x050 + k) = Config.defaultFont[k]) ∧
  (∀ j, j < 256 → State.reset.disp.byte j = 0) ∧
  State.reset.tExec = 0 ∧ State.reset.tTimer = 0 ∧ State.reset.params.stackLimit = none ∧
  State.reset.params.execPeriod = 1 / 700 ∧ State.reset.params.timerPeriod = 1 / 60 ∧
  State.reset.events = [] ∧ State.reset.pending = []

/-- Construct's load procedure (70_reset_and_hazards.md R191): the two size errors in their order, and otherwise the
value of every piece of state. That the parameters are the given ones is log 4 and log 24; that the lists of events and
of coming commands start empty is log 3 and log 1: those are the model's choices. -/
def Obligations.ConstructLoadsFontAndProgram : Prop :=
  ∀ (p : Config.Params) (program : List Byte) (font : Option (List Byte)) (now : Time),
    (3584 < program.length → construct p program font now = .error (.programTooLarge program.length)) ∧
    (program.length ≤ 3584 → ∀ f, font = some f → f.length ≠ 80 →
      construct p program font now = .error (.fontSizeInvalid f.length)) ∧
    (program.length ≤ 3584 → (∀ f, font = some f → f.length = 80) →
      ∃ t, construct p program font now = .ok t ∧
        (∀ z, t.reg z = 0) ∧ t.i = 0 ∧ t.pc = 0x200 ∧ t.stack = [] ∧ t.dt = 0 ∧ t.st = 0 ∧
        (∀ k, (h : k < program.length) → t.mem.byte (0x200 + k) = program[k]) ∧
        (∀ f, font = some f → ∀ k, (h : k < f.length) → t.mem.byte (0x050 + k) = f[k]) ∧
        (font = none → ∀ k, (h : k < 80) → t.mem.byte (0x050 + k) = Config.defaultFont[k]) ∧
        (∀ a, a < 0x050 ∨ (0x09F < a ∧ a < 0x200) ∨ 0x200 + program.length ≤ a → t.mem.byte a = 0) ∧
        (∀ j, t.disp.byte j = 0) ∧ t.fault = none ∧ t.tExec = now ∧ t.tTimer = now ∧
        t.params = p ∧ t.events = [] ∧ t.pending = [])

/-- Construct may be issued in any state, a stopped one too, and its result does not depend on the earlier state
(70_reset_and_hazards.md section 1, D29); the parameters and the host's later commands stay (log 24), and the list of
events starts empty (log 3). A Construct whose sizes do not fit gives its error and no state (D24, D25). -/
def Obligations.ConstructRestartsFromAnyState : Prop :=
  ∀ (s s' : State) (program : List Byte) (font : Option (List Byte)) (now : Time) (q : List Command),
    s.pending = .construct program font now :: q → s'.pending = s.pending → s'.params = s.params →
      step s = step s' ∧
      (program.length ≤ 3584 → (∀ f, font = some f → f.length = 80) →
        ∃ t, construct s.params program font now = .ok t ∧ step s = .next (t.setPending q) ∧
          t.params = s.params ∧ t.events = []) ∧
      (¬ (program.length ≤ 3584 ∧ ∀ f, font = some f → f.length = 80) →
        ∃ e, construct s.params program font now = .error e ∧ step s = .refused (.constructError e))

/-! ## The Cycle -/

/-- A step runs the decoded instruction: in a running block with both bytes of the word at PC in memory, whether PC is
even or odd (D4, log 15) and inside the reserved range or not (D22, log 20). The step is the instruction's meaning; a
Cycle the host has listed is taken from the list (log 1). -/
def Obligations.StepRunsTheDecodedInstruction : Prop :=
  ∀ (s : State) (i : Instr), s.fault = none → s.pc.toNat ≤ 0xFFE →
    decode (wordOfBytes (s.mem.byte s.pc.toNat) (s.mem.byte (s.pc.toNat + 1))) = some i →
      (s.pending = [] → step s = exec i s) ∧
      (∀ q, s.pending = .cycle :: q → step s = exec i (s.setPending q))

/-- A Cycle that would fetch past 0xFFF raises FETCH_OUT_OF_RANGE, with PC and no word in the record, and changes
nothing else (20_memory.md section 3; D3, D5, D30, log 22, log 23); a Cycle the host has listed is taken from the list
(log 1). -/
def Obligations.FetchPastTheTopFaults : Prop :=
  ∀ s : State, s.fault = none → 0xFFE < s.pc.toNat →
    (s.pending = [] →
      step s = .next (s.setFault (some { code := .fetchOutOfRange, pc := s.pc, word := none }))) ∧
    (∀ q, s.pending = .cycle :: q →
      step s = .next ((s.setPending q).setFault (some { code := .fetchOutOfRange, pc := s.pc, word := none })))

/-- A Cycle, listed by the host or not, whose fetched word does not decode raises UNIMPLEMENTED_OPCODE with info
(pc0, w) (60_exceptions.md R161). -/
def Obligations.UnimplementedWordFaults : Prop :=
  ∀ (s : State) (w : Word), s.fault = none → nextCommand s = .cycle → s.pc.toNat ≤ 0xFFE →
    w = wordOfBytes (s.mem.byte s.pc.toNat) (s.mem.byte (s.pc.toNat + 1)) → decode w = none →
      ∃ t, step s = .next t ∧ t.fault = some { code := .unimplementedOpcode, pc := s.pc, word := some w }

/-- Every Cycle of a running block answers a next state. It faults exactly in the conditions of `faultOfCycle`, checked
in their order, and then nothing of the state changes but the fault record, which holds the code, the PC of the Cycle
and the fetched word, if one was fetched (60_exceptions.md section 1; D5, D18, D19, log 2, log 23). -/
def Obligations.CycleFaultsExactlyWhenSpecified : Prop :=
  ∀ s : State, s.fault = none →
    ∃ t, cycle s = .next t ∧ t.fault.map FaultRecord.code = faultOfCycle s ∧
      ∀ code, faultOfCycle s = some code →
        t = s.setFault (some
          { code := code, pc := s.pc,
            word := if code = .fetchOutOfRange then none
              else some (wordOfBytes (s.mem.byte s.pc.toNat) (s.mem.byte (s.pc.toNat + 1))) })

/-- A stopped block accepts no Cycle and no Tick, whatever its state (60_exceptions.md section 1; D6, log 2). -/
def Obligations.StoppedBlockAcceptsNoCycleAndNoTick : Prop :=
  ∀ (s : State) (r : FaultRecord), s.fault = some r →
    (s.pending = [] → step s = .fault (.stopped r)) ∧
    (∀ q, s.pending = .cycle :: q → step s = .fault (.stopped r)) ∧
    (∀ q, s.pending = .tick :: q → step s = .fault (.stopped r))

/-- The numbers of the fault codes and of Construct's errors, which the spec chose (60_exceptions.md section 1; D18). -/
def Obligations.FaultCodesAreNumbered : Prop :=
  FaultCode.fetchOutOfRange.number = 1 ∧ FaultCode.unimplementedOpcode.number = 2 ∧
  FaultCode.stackUnderflow.number = 3 ∧ FaultCode.stackOverflow.number = 4 ∧
  FaultCode.spriteReadOutOfRange.number = 5 ∧
  (∀ n, (ConstructError.programTooLarge n).number = 16) ∧ (∀ n, (ConstructError.fontSizeInvalid n).number = 17)

/-! ## Control transfer -/

/-- RET pops the return address into PC, and on the empty stack raises STACK_UNDERFLOW (40_control_flow.md R100,
60_exceptions.md R162). -/
def Obligations.RetPopsOrUnderflows : Prop :=
  ∀ s : State,
    (∀ (l : List Word) (ra : Word), s.stack = l ++ [ra] →
      ∃ t, exec .ret s = .next t ∧ t.pc = ra ∧ t.stack = l ∧ t.i = s.i ∧ KeepsDisplay [] s t) ∧
    (s.stack = [] →
      ∃ t, exec .ret s = .next t ∧
        t.fault = some { code := .stackUnderflow, pc := s.pc, word := some 0x00EE })

/-- JP sets PC to the zero-extended address (40_control_flow.md R101). -/
def Obligations.JpSetsPc : Prop :=
  ∀ (s : State) (addr : Addr),
    ∃ t, exec (.jp addr) s = .next t ∧ t.pc.toNat = addr.toNat ∧ KeepsRest [] s t

/-- CALL pushes the address after the call and sets PC; at STACK_LIMIT it raises STACK_OVERFLOW and keeps all the rest
(40_control_flow.md section 2; D5, D11, log 4, log 23). -/
def Obligations.CallPushesOrOverflows : Prop :=
  ∀ (s : State) (addr : Addr),
    (s.params.stackLimit ≠ some s.stack.length →
      ∃ t, exec (.call addr) s = .next t ∧ t.pc.toNat = addr.toNat ∧ t.stack = s.stack ++ [s.pc + 2] ∧
        t.i = s.i ∧ KeepsDisplay [] s t) ∧
    (s.params.stackLimit = some s.stack.length →
      exec (.call addr) s = .next (s.setFault (some
        { code := .stackOverflow, pc := s.pc, word := some (0x2000 + addr.setWidth 16) })))

/-- A call followed at once by a return resumes after the call, with the stack as before (40_control_flow.md section 2,
95_test_vectors.md S4). -/
def Obligations.CallThenRetResumesAfterTheCall : Prop :=
  ∀ (s : State) (addr : Addr), s.params.stackLimit ≠ some s.stack.length →
    ∃ t u, exec (.call addr) s = .next t ∧ exec .ret t = .next u ∧ u.pc = s.pc + 2 ∧ KeepsRest [] s u

/-- SE and SNE with an immediate: PC goes a further 2 when the condition holds (40_control_flow.md R103, R104). -/
def Obligations.SkipsOnImmediate : Prop :=
  ∀ (s : State) (x : Reg) (nn : Byte),
    (∃ t, exec (.seImm x nn) s = .next t ∧
      t.pc = s.pc + (if s.reg x = nn then 4 else 2) ∧ KeepsRest [] s t) ∧
    (∃ t, exec (.sneImm x nn) s = .next t ∧
      t.pc = s.pc + (if s.reg x ≠ nn then 4 else 2) ∧ KeepsRest [] s t)

/-- SE and SNE with two registers (40_control_flow.md section 3). -/
def Obligations.SkipsOnRegisters : Prop :=
  ∀ (s : State) (x y : Reg),
    (∃ t, exec (.seReg x y) s = .next t ∧
      t.pc = s.pc + (if s.reg x = s.reg y then 4 else 2) ∧ KeepsRest [] s t) ∧
    (∃ t, exec (.sneReg x y) s = .next t ∧
      t.pc = s.pc + (if s.reg x ≠ s.reg y then 4 else 2) ∧ KeepsRest [] s t)

/-- A state parked on a jump to itself is a fixed point of Cycle, but for the Cycle taken from the list
(70_reset_and_hazards.md section 4; D26, log 1). -/
def Obligations.ParkedStateRepeats : Prop :=
  ∀ (s : State) (addr : Addr), s.fault = none → s.pc.toNat ≤ 0xFFE →
    decode (wordOfBytes (s.mem.byte s.pc.toNat) (s.mem.byte (s.pc.toNat + 1))) = some (.jp addr) →
    addr.toNat = s.pc.toNat →
      (s.pending = [] → step s = .next s) ∧ (∀ q, s.pending = .cycle :: q → step s = .next (s.setPending q))

/-! ## Registers -/

/-- The two loads of a general register (41_register_alu.md R120, R122). -/
def Obligations.LoadsWriteTheirRegister : Prop :=
  ∀ (s : State) (x y : Reg) (nn : Byte),
    (∃ t, exec (.ldImm x nn) s = .next t ∧ t.reg x = nn ∧ t.pc = s.pc + 2 ∧ KeepsRest [x] s t) ∧
    (∃ t, exec (.ldReg x y) s = .next t ∧ t.reg x = s.reg y ∧ t.pc = s.pc + 2 ∧ KeepsRest [x] s t)

/-- The immediate add is modulo 256 and writes no flag (41_register_alu.md R121). -/
def Obligations.AddImmediateSetsNoFlag : Prop :=
  ∀ (s : State) (x : Reg) (nn : Byte),
    ∃ t, exec (.addImm x nn) s = .next t ∧ (t.reg x).toNat = ((s.reg x).toNat + nn.toNat) % 256 ∧
      t.pc = s.pc + 2 ∧ KeepsRest [x] s t

/-- OR, AND and XOR are bitwise and write no flag (41_register_alu.md R123, R124, R125). -/
def Obligations.LogicIsBitwiseAndSetsNoFlag : Prop :=
  ∀ (s : State) (x y : Reg),
    (∃ t, exec (.orReg x y) s = .next t ∧
      (∀ k, (t.reg x).getLsbD k = ((s.reg x).getLsbD k || (s.reg y).getLsbD k)) ∧
      t.pc = s.pc + 2 ∧ KeepsRest [x] s t) ∧
    (∃ t, exec (.andReg x y) s = .next t ∧
      (∀ k, (t.reg x).getLsbD k = ((s.reg x).getLsbD k && (s.reg y).getLsbD k)) ∧
      t.pc = s.pc + 2 ∧ KeepsRest [x] s t) ∧
    (∃ t, exec (.xorReg x y) s = .next t ∧
      (∀ k, (t.reg x).getLsbD k = ((s.reg x).getLsbD k ^^ (s.reg y).getLsbD k)) ∧
      t.pc = s.pc + 2 ∧ KeepsRest [x] s t)

/-- ADD of two registers: the sum modulo 256, and VF the carry; with x = 15 the carry stays (41_register_alu.md
section 2; D7, log 16). -/
def Obligations.AddSetsCarry : Prop :=
  ∀ (s : State) (x y : Reg),
    ∃ t, exec (.addReg x y) s = .next t ∧
      (x ≠ 15 → (t.reg x).toNat = ((s.reg x).toNat + (s.reg y).toNat) % 256) ∧
      (t.reg 15).toNat = (if 256 ≤ (s.reg x).toNat + (s.reg y).toNat then 1 else 0) ∧
      t.pc = s.pc + 2 ∧ KeepsRest [x, 15] s t

/-- SUB: Vx - Vy modulo 256, and VF 1 exactly when Vx > Vy; at equality the result and the flag are 0; with x = 15 the
flag stays (41_register_alu.md section 2, 90_conflicts.md C2; D7, log 16). -/
def Obligations.SubSetsFlagWhenGreater : Prop :=
  ∀ (s : State) (x y : Reg),
    ∃ t, exec (.subReg x y) s = .next t ∧
      (x ≠ 15 → (t.reg x).toNat = if (s.reg y).toNat < (s.reg x).toNat
        then (s.reg x).toNat - (s.reg y).toNat
        else (256 - ((s.reg y).toNat - (s.reg x).toNat)) % 256) ∧
      (t.reg 15).toNat = (if (s.reg y).toNat < (s.reg x).toNat then 1 else 0) ∧
      t.pc = s.pc + 2 ∧ KeepsRest [x, 15] s t

/-- SUBN: Vy - Vx modulo 256, and VF 1 exactly when Vy > Vx (41_register_alu.md section 2, 90_conflicts.md C2; D7,
log 16). -/
def Obligations.SubnSetsFlagWhenGreater : Prop :=
  ∀ (s : State) (x y : Reg),
    ∃ t, exec (.subnReg x y) s = .next t ∧
      (x ≠ 15 → (t.reg x).toNat = if (s.reg x).toNat < (s.reg y).toNat
        then (s.reg y).toNat - (s.reg x).toNat
        else (256 - ((s.reg x).toNat - (s.reg y).toNat)) % 256) ∧
      (t.reg 15).toNat = (if (s.reg x).toNat < (s.reg y).toNat then 1 else 0) ∧
      t.pc = s.pc + 2 ∧ KeepsRest [x, 15] s t

/-- LD I, addr sets the index register to the zero-extended address (41_register_alu.md R129). -/
def Obligations.LdISetsIndex : Prop :=
  ∀ (s : State) (addr : Addr),
    ∃ t, exec (.ldI addr) s = .next t ∧ t.i.toNat = addr.toNat ∧ t.pc = s.pc + 2 ∧ t.stack = s.stack ∧
      KeepsDisplay [] s t

/-! ## Display -/

/-- CLS clears every display byte, writes no flag and emits no event (42_display.md section 1; D14, log 19). -/
def Obligations.ClsClearsTheDisplay : Prop :=
  ∀ s : State,
    ∃ t, exec .cls s = .next t ∧ t.displayPort = List.replicate 256 0 ∧ (∀ j, t.disp.byte j = 0) ∧
      t.events = s.events ∧ t.pc = s.pc + 2 ∧ t.i = s.i ∧ t.stack = s.stack ∧ KeepsCommon [] s t

/-- DRW, pixel by pixel: every pixel is XORed with the sprite bit drawn there; VF is 1 exactly when a set pixel met a
set sprite bit, and else 0; one Draw event carries the display afterwards (42_display.md section 2; D8, D13, log 17,
log 18). -/
def Obligations.DrwXorsTheSpriteOntoTheDisplay : Prop :=
  ∀ (s : State) (x y : Reg) (n : Nat), n = 0 ∨ s.i.toNat + n - 1 ≤ 0xFFF →
    ∃ t, exec (.drw x y n) s = .next t ∧
      (∀ c r, c < 64 → r < 32 → t.disp.pixel c r = (s.disp.pixel c r ^^ drawnBit s x y n c r)) ∧
      (t.reg 15 = 0 ∨ t.reg 15 = 1) ∧
      (t.reg 15 = 1 ↔
        ∃ c r, c < 64 ∧ r < 32 ∧ s.disp.pixel c r = true ∧ drawnBit s x y n c r = true) ∧
      t.events = s.events ++ [.draw t.disp] ∧
      t.pc = s.pc + 2 ∧ t.i = s.i ∧ t.stack = s.stack ∧ KeepsCommon [15] s t

/-- DRW of one row, byte by byte: the left part goes into the byte of the start column, the overflow bits into the next
byte of the same row if there is one, and no other byte changes (42_display.md section 2; D13, log 18). -/
def Obligations.DrwOfOneRowSplitsAcrossTwoBytes : Prop :=
  ∀ (s : State) (x y : Reg), s.i.toNat ≤ 0xFFF →
    ∃ t, exec (.drw x y 1) s = .next t ∧
      ∀ j, j < 256 → t.disp.byte j = s.disp.byte j ^^^
        (if j = (s.reg y).toNat % 32 * 8 + (s.reg x).toNat % 64 / 8 then
          s.mem.byte s.i.toNat >>> ((s.reg x).toNat % 8)
        else if (s.reg x).toNat % 8 ≠ 0 ∧ (s.reg x).toNat % 64 / 8 < 7 ∧
            j = (s.reg y).toNat % 32 * 8 + (s.reg x).toNat % 64 / 8 + 1 then
          s.mem.byte s.i.toNat <<< (8 - (s.reg x).toNat % 8)
        else 0)

/-- DRW whose n rows are not all in memory raises SPRITE_READ_OUT_OF_RANGE and keeps all the rest, even if the rows
beyond 0xFFF would be clipped (42_display.md section 2; D5, D9, D30, log 12, log 22, log 23). -/
def Obligations.DrwPastTheTopFaults : Prop :=
  ∀ (s : State) (x y : Reg) (n : Nat), 0 < n → n < 16 → 0xFFF < s.i.toNat + n - 1 →
    exec (.drw x y n) s = .next (s.setFault (some
      { code := .spriteReadOutOfRange, pc := s.pc,
        word := some (BitVec.ofNat 16 (0xD000 + x.val * 256 + y.val * 16 + n)) }))

/-- Drawing the same sprite twice at the same place restores the display, and the second draw collides exactly when the
first turned a pixel from 0 to 1; neither coordinate register is VF (42_display.md section 2, 90_conflicts.md C7). -/
def Obligations.DrwTwiceRestoresTheDisplay : Prop :=
  ∀ (s : State) (x y : Reg) (n : Nat), x ≠ 15 → y ≠ 15 → n = 0 ∨ s.i.toNat + n - 1 ≤ 0xFFF →
    ∃ t u, exec (.drw x y n) s = .next t ∧ exec (.drw x y n) t = .next u ∧
      (∀ j, j < 256 → u.disp.byte j = s.disp.byte j) ∧
      (u.reg 15 = 1 ↔ ∃ c r, c < 64 ∧ r < 32 ∧ s.disp.pixel c r = false ∧ t.disp.pixel c r = true)

/-! ## Timers -/

/-- Tick on a running block: both timers count down and stay at zero, independently, and a Beep is emitted while ST is
nonzero; nothing else changes (60_exceptions.md R174). -/
def Obligations.TickCountsTheTimersDown : Prop :=
  ∀ (s : State) (q : List Command), s.fault = none → s.pending = .tick :: q →
    ∃ t, step s = .next t ∧ t.dt.toNat = s.dt.toNat - 1 ∧ t.st.toNat = s.st.toNat - 1 ∧
      t.events = s.events ++ (if s.st = 0 then [] else [.beep]) ∧
      (∀ z, t.reg z = s.reg z) ∧ t.i = s.i ∧ t.pc = s.pc ∧ t.stack = s.stack ∧
      (∀ a, t.mem.byte a = s.mem.byte a) ∧ (∀ j, t.disp.byte j = s.disp.byte j) ∧ t.fault = none ∧
      t.tExec = s.tExec ∧ t.tTimer = s.tTimer ∧ t.params = s.params ∧ t.pending = q

/-- k Ticks in a row count both timers down by k, floored at zero, and beep min(k, ST) times (60_exceptions.md
section 3; the commands come from the host's list, log 1, and the events go to the model's, log 3). -/
def Obligations.TicksBeepAsOftenAsTheSoundTimerSays : Prop :=
  ∀ (k : Nat) (s : State) (q : List Command), s.fault = none → s.pending = List.replicate k .tick ++ q →
    ∃ t : State, Host.Core.run Sys2Proof.core k s = .next t ∧
      t.dt.toNat = s.dt.toNat - k ∧ t.st.toNat = s.st.toNat - k ∧
      t.events = s.events ++ List.replicate (min k s.st.toNat) .beep ∧
      t.pc = s.pc ∧ t.fault = none ∧ t.pending = q

/-- A Cycle that does not fault and a Tick give the same state in either order, but for the order of the events they
emit (60_exceptions.md section 5, D27; log 3). -/
def Obligations.CycleAndTickCommute : Prop :=
  ∀ s s1 s2 : State, s.fault = none → cycle s = .next s1 → s1.fault = none → tick s1 = .next s2 →
    ∃ s3 s4, tick s = .next s3 ∧ cycle s3 = .next s4 ∧
      { s4 with events := [] } = { s2 with events := [] } ∧ s4.events.Perm s2.events

/-- No instruction reads or writes a timer: from any other values of the timers it does the same and leaves them
(10_state.md section 5, 60_exceptions.md section 3). -/
def Obligations.InstructionsDoNotSeeTheTimers : Prop :=
  ∀ (i : Instr) (s : State) (d u : Byte),
    ∃ t, exec i s = .next t ∧ exec i (s.setTimers d u) = .next (t.setTimers d u) ∧ t.dt = s.dt ∧ t.st = s.st

/-- Update runs a Cycle when more than EXEC_PERIOD has passed and then a Tick when more than TIMER_PERIOD has, at most
one of each; a faulting Cycle ends it; with neither due it changes nothing, on a stopped block too, where it is not
accepted with one due (60_exceptions.md sections 1 and 4; D6, D15, log 2, log 13). A step on an Update the host has
listed is that Update, taken from the list (log 1). -/
def Obligations.UpdateRunsAtMostOneOfEach : Prop :=
  ∀ (s : State) (now : Time),
    (∀ q, s.pending = .update now :: q → step s = update now (s.setPending q)) ∧
    (now - s.tExec ≤ s.params.execPeriod → now - s.tTimer ≤ s.params.timerPeriod → update now s = .next s) ∧
    (∀ r, s.fault = some r → s.params.execPeriod < now - s.tExec ∨ s.params.timerPeriod < now - s.tTimer →
      update now s = .fault (.stopped r)) ∧
    (s.fault = none → now - s.tExec ≤ s.params.execPeriod → s.params.timerPeriod < now - s.tTimer →
      ∃ u, tick s = .next u ∧ update now s = .next (u.setTTimer now)) ∧
    (s.params.execPeriod < now - s.tExec → ∀ t, cycle s = .next t →
      (t.fault ≠ none → update now s = .next t) ∧
      (t.fault = none → now - s.tTimer ≤ s.params.timerPeriod → update now s = .next (t.setTExec now)) ∧
      (t.fault = none → s.params.timerPeriod < now - s.tTimer →
        ∃ u, tick (t.setTExec now) = .next u ∧ update now s = .next (u.setTTimer now)))

/-- A second Update before a further period has passed since the last Cycle and the last Tick changes nothing
(60_exceptions.md section 4, 95_test_vectors.md S8; D15, log 13). -/
def Obligations.UpdateAgainTooSoonDoesNothing : Prop :=
  ∀ (s t : State) (now now' : Time), update now s = .next t → t.fault = none →
    now' - (if s.params.execPeriod < now - s.tExec then now else s.tExec) ≤ s.params.execPeriod →
    now' - (if s.params.timerPeriod < now - s.tTimer then now else s.tTimer) ≤ s.params.timerPeriod →
      update now' t = .next t

/-! ## The read ports -/

/-- The memory port gives the 4096 bytes, the display port the 256 bytes, the fault port the record, and a read changes
nothing (60_exceptions.md section 5; D1, D28, log 25). -/
def Obligations.ReadPortsShowMemoryDisplayAndFault : Prop :=
  ∀ s : State,
    s.memoryPort.length = 4096 ∧ (∀ a, a ≤ 0xFFF → s.memoryPort[a]? = some (s.mem.byte a)) ∧
    s.displayPort.length = 256 ∧ (∀ j, j < 256 → s.displayPort[j]? = some (s.disp.byte j)) ∧
    s.faultPort = s.fault ∧
    ∀ c ∈ [Command.readMemory, Command.readDisplay, Command.readFault], ∀ q, s.pending = c :: q →
      step s = .next (s.setPending q)

/-! ## The whole machine -/

/-- Only the named instructions write a general register: the destination, and VF for those that set the flag
(10_state.md section 1). -/
def Obligations.OnlyNamedInstructionsWriteRegisters : Prop :=
  ∀ (i : Instr) (s t : State) (z : Reg), exec i s = .next t → t.reg z ≠ s.reg z →
    destReg i = some z ∨ (setsFlag i = true ∧ z = 15)

/-- I is written by LD I alone, the stack by CALL and RET, the display by CLS and DRW, and a Draw event comes from DRW
alone, with the display as it then is (10_state.md sections 2, 4 and 6, 60_exceptions.md section 5; D14, log 19). -/
def Obligations.OnlyNamedInstructionsWriteTheRest : Prop :=
  ∀ (i : Instr) (s t : State), exec i s = .next t →
    (t.i ≠ s.i → ∃ addr, i = .ldI addr) ∧
    (t.stack ≠ s.stack → i = .ret ∨ ∃ addr, i = .call addr) ∧
    (t.disp ≠ s.disp → i = .cls ∨ ∃ x y n, i = .drw x y n) ∧
    (t.events ≠ s.events → (∃ x y n, i = .drw x y n) ∧ t.events = s.events ++ [.draw t.disp])

/-- Memory is constant after construction: no command but Construct changes a byte (20_memory.md section 3). -/
def Obligations.OnlyConstructWritesMemory : Prop :=
  ∀ s t : State, step s = .next t → (∀ program font now, nextCommand s ≠ .construct program font now) →
    ∀ a, t.mem.byte a = s.mem.byte a

/-- Two memories in canonical form that read alike at every address of the block are equal (log 8). -/
def Obligations.CanonicalMemoriesThatReadAlikeAreEqual : Prop :=
  ∀ m m' : Memory, m.wf → m'.wf → (∀ a, a ≤ 0xFFF → m.byte a = m'.byte a) → m = m'

/-- The invariant holds at reset. -/
def Obligations.InvariantHoldsAtReset : Prop := State.reset.Inv

/-- Every step keeps the invariant: the bounds of PC, I and the return addresses, the stack limit, the form of the
fault record and the canonical form of the stores (10_state.md sections 2, 3, 4 and 7, 40_control_flow.md section 2;
D5, D18, log 8, log 23). -/
def Obligations.EveryStepKeepsTheInvariant : Prop :=
  ∀ s t : State, s.Inv → step s = .next t → t.Inv

/-- The fault record is never cleared or changed but by Construct: every other command that a stopped block accepts
leaves it (10_state.md section 7, 60_exceptions.md section 1; D6, log 2). -/
def Obligations.OnlyConstructClearsTheFaultRecord : Prop :=
  ∀ (s t : State) (r : FaultRecord), s.fault = some r → step s = .next t →
    (∀ program font now, nextCommand s ≠ .construct program font now) → t.fault = some r
end

