-- ==== Sys2Proof/Laws/Cells.lean ====
section
/-! SUPPORT. The sparse store: what a set byte reads as, and that the canonical form is kept. -/

namespace Sys2Proof.Machine

theorem cellLookup_put (cs : List Host.Cell) (a a' : Nat) (b : Byte) :
    cellLookup (cellPut cs a b) a' = if a' = a then some b else cellLookup cs a' := by
  induction cs with
  | nil => simp [cellPut, cellLookup, eq_comm]
  | cons c cs ih =>
    by_cases h1 : a < c.1
    · simp [cellPut, h1, cellLookup, eq_comm]
    · by_cases h2 : a = c.1
      · subst h2
        by_cases h : c.1 = a'
        · simp [cellPut, cellLookup, h]
        · simp [cellPut, cellLookup, h, Ne.symm h]
      · by_cases h : c.1 = a'
        · subst h
          simp [cellPut, h1, h2, cellLookup, Ne.symm h2]
        · simp [cellPut, h1, h2, cellLookup, h, ih]

theorem cellLookup_drop (cs : List Host.Cell) (a a' : Nat) :
    cellLookup (cellDrop cs a) a' = if a' = a then none else cellLookup cs a' := by
  induction cs with
  | nil => simp [cellDrop, cellLookup]
  | cons c cs ih =>
    by_cases h : c.1 = a
    · subst h
      by_cases h' : c.1 = a'
      · subst h'
        simpa [cellDrop] using ih
      · simpa [cellDrop, cellLookup, h', eq_comm] using ih
    · by_cases h' : c.1 = a'
      · subst h'
        simp [cellDrop, cellLookup, h]
      · simpa [cellDrop, cellLookup, h, h'] using ih

/-- A set byte reads as set, and every other byte as before; this holds of any list. -/
theorem cellLookup_set_getD (rest : Nat → Byte) (cs : List Host.Cell) (a a' : Nat) (b : Byte) :
    (cellLookup (cellSet rest cs a b) a').getD (rest a') =
      if a' = a then b else (cellLookup cs a').getD (rest a') := by
  unfold cellSet
  by_cases hb : b = rest a
  · rw [if_pos hb, cellLookup_drop]
    by_cases h : a' = a
    · subst h; simp [hb]
    · simp [h]
  · rw [if_neg hb, cellLookup_put]
    by_cases h : a' = a <;> simp [h]

theorem mem_cellPut {cs : List Host.Cell} {a : Nat} {b : Byte} {c : Host.Cell} (h : c ∈ cellPut cs a b) :
    c = (a, b) ∨ c ∈ cs := by
  induction cs with
  | nil => simpa [cellPut] using h
  | cons d cs ih =>
    simp only [cellPut] at h
    split at h
    · simpa using h
    · split at h
      · simp only [List.mem_cons] at h ⊢
        exact h.imp_right Or.inr
      · rcases List.mem_cons.mp h with h | h
        · exact .inr (h ▸ List.mem_cons_self)
        · exact (ih h).imp_right (List.mem_cons_of_mem d)

theorem cellPut_pairwise {cs : List Host.Cell} (a : Nat) (b : Byte)
    (h : cs.Pairwise (fun c d => c.1 < d.1)) : (cellPut cs a b).Pairwise (fun c d => c.1 < d.1) := by
  induction cs with
  | nil => simp [cellPut]
  | cons c cs ih =>
    obtain ⟨hc, hcs⟩ := List.pairwise_cons.mp h
    simp only [cellPut]
    split
    · rename_i h1
      refine List.pairwise_cons.mpr ⟨fun d hd => ?_, h⟩
      rcases List.mem_cons.mp hd with rfl | hd
      · exact h1
      · exact h1.trans (hc d hd)
    · split
      · rename_i h2
        exact List.pairwise_cons.mpr ⟨fun d hd => h2 ▸ hc d hd, hcs⟩
      · refine List.pairwise_cons.mpr ⟨fun d hd => ?_, ih hcs⟩
        rcases mem_cellPut hd with rfl | hd
        · simp only; omega
        · exact hc d hd

/-- Setting a byte that exists keeps the canonical form. -/
theorem cellSet_wf {rest : Nat → Byte} {size : Nat} {cs : List Host.Cell} {a : Nat} (b : Byte)
    (h : cellsWf rest size cs) (ha : a < size) : cellsWf rest size (cellSet rest cs a b) := by
  unfold cellSet
  split
  · exact ⟨h.1.filter _, fun c hc => h.2 c (List.mem_of_mem_filter hc)⟩
  · rename_i hb
    refine ⟨cellPut_pairwise a b h.1, fun c hc => ?_⟩
    rcases mem_cellPut hc with rfl | hc
    · exact ⟨ha, hb⟩
    · exact h.2 c hc

end Sys2Proof.Machine
end

