-- ==== Sys2Proof/Laws/Stores.lean ====
section
/-! SUPPORT. Memory and display: reads after writes, the canonical form, wide reads, and what Construct loads. -/

namespace Sys2Proof.Machine

/-! ## Memory -/

theorem Memory.unlisted_of_not_font {a : Nat} (h : ¬ (0x050 ≤ a ∧ a < 0x0A0)) : Memory.unlisted a = 0 :=
  dif_neg h

theorem Memory.unlisted_font {k : Nat} (h : k < 80) : Memory.unlisted (0x050 + k) = Config.defaultFont[k] := by
  have hk : Config.fontBase ≤ 0x050 + k ∧ 0x050 + k < Config.fontBase + Config.fontSize :=
    ⟨by simp only [Config.fontBase]; omega, by simp only [Config.fontBase, Config.fontSize]; omega⟩
  rw [Memory.unlisted, dif_pos hk]
  congr 1
  simp only [Config.fontBase]
  omega

@[simp] theorem Memory.byte_nil (a : Nat) : Memory.byte [] a = Memory.unlisted a := rfl

/-- A written byte reads as written, and every other byte as before. -/
theorem Memory.byte_write (m : Memory) {a : Nat} (b : Byte) (a' : Nat) (ha : a < 4096) :
    (m.write a b).byte a' = if a' = a then b else m.byte a' := by
  rw [Memory.write, if_pos ha]
  exact cellLookup_set_getD Memory.unlisted m a a' b

/-- Every write keeps the canonical form. -/
theorem Memory.write_wf {m : Memory} (a : Nat) (b : Byte) (h : m.wf) : (m.write a b).wf := by
  unfold Memory.write
  split
  · exact cellSet_wf b h ‹_›
  · exact h

/-- Writing several bytes keeps the canonical form. -/
theorem Memory.writeBytes_wf {m : Memory} (a : Nat) (bs : List Byte) (h : m.wf) : (m.writeBytes a bs).wf := by
  induction bs generalizing m a with
  | nil => exact h
  | cons b bs ih => exact ih (a + 1) (Memory.write_wf a b h)

/-- Bytes written at rising addresses read as written, and every other byte as before. -/
theorem Memory.byte_writeBytes (m : Memory) (a : Nat) (bs : List Byte) (a' : Nat) (h : a + bs.length ≤ 4096) :
    (m.writeBytes a bs).byte a' =
      if h : a ≤ a' ∧ a' < a + bs.length then bs[a' - a] else m.byte a' := by
  induction bs generalizing m a with
  | nil => simp [Memory.writeBytes]
  | cons b bs ih =>
    simp only [List.length_cons] at h
    rw [Memory.writeBytes, ih _ _ (by omega), Memory.byte_write _ _ _ (by omega)]
    by_cases h1 : a + 1 ≤ a' ∧ a' < a + 1 + bs.length
    · rw [dif_pos h1, dif_pos (by simp only [List.length_cons]; omega)]
      have : a' - a = (a' - (a + 1)) + 1 := by omega
      simp [this]
    · rw [dif_neg h1]
      by_cases h2 : a' = a
      · subst h2
        simp
      · rw [dif_neg (by simp only [List.length_cons]; omega), if_neg h2]

/-- MemRead: a byte at every address up to 0xFFF, none above (20_memory.md R54). -/
theorem Memory.read?_eq (m : Memory) (a : Nat) : m.read? a = if a ≤ 0xFFF then some (m.byte a) else none := by
  simp only [Memory.read?, Config.memSize, show a < 4096 ↔ a ≤ 0xFFF by omega]

/-- A wide read: all the bytes when the last one exists, none otherwise (42_display.md R142). -/
theorem Memory.readBytes_eq (m : Memory) (a n : Nat) :
    m.readBytes a n = if 0 < n ∧ 0xFFF < a + n - 1 then none
      else some ((List.range' a n).map m.byte) := by
  induction n generalizing a with
  | zero => simp [Memory.readBytes]
  | succ n ih =>
    rw [Memory.readBytes, Memory.read?_eq, ih]
    by_cases h1 : a ≤ 0xFFF
    · by_cases h2 : 0xFFF < a + n
      · have h3 : 0 < n := by omega
        simp [h1, h2, h3]
      · simp [h1, h2, List.range'_succ]
    · simp [h1, show 4095 < a + n by omega]

/-- The canonical form of the memory that Construct loads. -/
theorem loadMemory_wf (program : List Byte) (font : Option (List Byte)) : (loadMemory program font).wf :=
  Memory.writeBytes_wf _ _ (Memory.writeBytes_wf _ _ ⟨.nil, by simp⟩)

/-- What the memory that Construct loads reads as: the program, else the custom font, else the reset contents
(70_reset_and_hazards.md R191). -/
theorem loadMemory_byte (program : List Byte) (font : Option (List Byte)) (a : Nat)
    (hp : program.length ≤ 3584) (hf : (font.getD []).length ≤ 80) :
    (loadMemory program font).byte a =
      if h : 0x200 ≤ a ∧ a < 0x200 + program.length then program[a - 0x200]
      else if h : 0x050 ≤ a ∧ a < 0x050 + (font.getD []).length then (font.getD [])[a - 0x050]
      else Memory.unlisted a := by
  have h1 : Config.programBase + program.length ≤ 4096 := by simp only [Config.programBase]; omega
  have h2 : Config.fontBase + (font.getD []).length ≤ 4096 := by simp only [Config.fontBase]; omega
  rw [loadMemory, Memory.byte_writeBytes _ _ _ _ h1, Memory.byte_writeBytes _ _ _ _ h2]
  rfl

/-- Reset memory has the canonical form. -/
theorem reset_mem_wf : State.reset.mem.wf := ⟨.nil, by simp [State.reset]⟩

/-! ## Display -/

@[simp] theorem Display.byte_clear (j : Nat) : Display.clear.byte j = 0 := rfl

/-- A set display byte reads as set, and every other byte as before. -/
theorem Display.byte_setByte (d : Display) {j : Nat} (b : Byte) (j' : Nat) (hj : j < 256) :
    (d.setByte j b).byte j' = if j' = j then b else d.byte j' := by
  rw [Display.setByte, if_pos hj]
  exact cellLookup_set_getD Display.unlisted d j j' b

/-- Setting a display byte keeps the canonical form. -/
theorem Display.setByte_wf {d : Display} (j : Nat) (b : Byte) (h : d.wf) : (d.setByte j b).wf := by
  unfold Display.setByte
  split
  · exact cellSet_wf b h ‹_›
  · exact h

theorem Display.clear_wf : Display.clear.wf := ⟨.nil, by simp [Display.clear]⟩

end Sys2Proof.Machine
end

