-- ==== Sys2Proof/Laws/Blit.lean ====
section
/-! SUPPORT. The blit engine: the bytes one sprite row changes, its collision flag, and the canonical form. -/

namespace Sys2Proof.Machine

theorem xorByte_wf {d : Display} (j : Nat) (mask : Byte) (h : d.wf) : (xorByte d j mask).1.wf :=
  Display.setByte_wf j _ h

theorem blitRow_wf {d : Display} (cx r : Nat) (b : Byte) (h : d.wf) : (blitRow d cx r b).1.wf := by
  unfold blitRow
  simp only
  split
  · exact xorByte_wf _ _ (xorByte_wf _ _ h)
  · exact xorByte_wf _ _ h

theorem drawRows_wf {d : Display} (cx r : Nat) (bs : List Byte) (h : d.wf) : (drawRows d cx r bs).1.wf := by
  induction bs generalizing d r with
  | nil => exact h
  | cons b bs ih =>
    unfold drawRows
    split
    · exact ih (r + 1) (blitRow_wf cx r b h)
    · exact h

/-- The mask that a sprite row at column `cx` of row `r` has for the display byte `j` (42_display.md R145). -/
def rowMask (cx r : Nat) (b : Byte) (j : Nat) : Byte :=
  if j = r * 8 + cx / 8 then b >>> (cx % 8)
  else if cx % 8 ≠ 0 ∧ cx / 8 + 1 < 8 ∧ j = r * 8 + cx / 8 + 1 then b <<< (8 - cx % 8)
  else 0

/-- One sprite row XORs its mask into every display byte, and collides where a set pixel meets a set mask bit
(42_display.md R145, R146). -/
theorem blitRow_spec (d : Display) {cx r : Nat} (b : Byte) (hcx : cx < 64) (hr : r < 32) :
    (∀ j, (blitRow d cx r b).1.byte j = d.byte j ^^^ rowMask cx r b j) ∧
      ((blitRow d cx r b).2 = true ↔ ∃ j, d.byte j &&& rowMask cx r b j ≠ 0) := by
  have hj : r * 8 + cx / 8 < 256 := by omega
  unfold blitRow xorByte
  simp only [Config.rowBytes]
  by_cases h : cx % 8 ≠ 0 ∧ cx / 8 + 1 < 8
  · rw [if_pos h]
    have hj' : r * 8 + cx / 8 + 1 < 256 := by omega
    constructor
    · intro j
      simp only [Display.byte_setByte _ _ _ hj, Display.byte_setByte _ _ _ hj']
      unfold rowMask
      by_cases h1 : j = r * 8 + cx / 8
      · simp [h1]
      · by_cases h2 : j = r * 8 + cx / 8 + 1
        · simp [h2, h]
        · simp [h1, h2]
    · simp only [Display.byte_setByte _ _ _ hj, Bool.or_eq_true, bne_iff_ne]
      constructor
      · rintro (h1 | h1)
        · exact ⟨r * 8 + cx / 8, by simpa [rowMask] using h1⟩
        · exact ⟨r * 8 + cx / 8 + 1, by simpa [rowMask, h] using h1⟩
      · rintro ⟨j, h1⟩
        unfold rowMask at h1
        split at h1
        · rename_i h2; subst h2; exact .inl h1
        · split at h1
          · rename_i h3; right; obtain ⟨-, -, rfl⟩ := h3; simpa using h1
          · simp at h1
  · rw [if_neg h]
    have hno : ∀ j, ¬ (cx % 8 ≠ 0 ∧ cx / 8 + 1 < 8 ∧ j = r * 8 + cx / 8 + 1) := fun j h' => h ⟨h'.1, h'.2.1⟩
    constructor
    · intro j
      simp only [Display.byte_setByte _ _ _ hj, rowMask, if_neg (hno j)]
      by_cases h1 : j = r * 8 + cx / 8 <;> simp [h1]
    · simp only [bne_iff_ne]
      constructor
      · exact fun h1 => ⟨r * 8 + cx / 8, by simpa [rowMask] using h1⟩
      · rintro ⟨j, h1⟩
        simp only [rowMask, if_neg (hno j)] at h1
        split at h1
        · rename_i h2; subst h2; exact h1
        · simp at h1

/-- The next row is drawn after this one, and the collision flags are joined (42_display.md R144, R146). -/
theorem drawRows_cons (d : Display) (cx : Nat) {r : Nat} (b : Byte) (bs : List Byte) (hr : r < 32) :
    drawRows d cx r (b :: bs) =
      ((drawRows (blitRow d cx r b).1 cx (r + 1) bs).1,
        (blitRow d cx r b).2 || (drawRows (blitRow d cx r b).1 cx (r + 1) bs).2) := by
  rw [drawRows, if_pos hr]

/-- From the bottom of the display on nothing is drawn (42_display.md R144). -/
theorem drawRows_clipped (d : Display) (cx : Nat) {r : Nat} (bs : List Byte) (hr : 32 ≤ r) :
    drawRows d cx r bs = (d, false) := by
  cases bs with
  | nil => rfl
  | cons b bs => rw [drawRows, if_neg (by simpa using hr)]

/-! ## Pixel by pixel -/

/-- The bit of a sprite row at column `cx` for the pixel column `c`: the most significant bit is the leftmost
(42_display.md R148). -/
def rowBit (cx : Nat) (b : Byte) (c : Nat) : Bool := decide (cx ≤ c ∧ c < cx + 8) && b.getLsbD (7 - (c - cx))

/-- The mask of a row, read at a pixel of the display. -/
theorem rowMask_pixel {cx r r' c : Nat} (b : Byte) (hcx : cx < 64) (hc : c < 64) :
    (rowMask cx r b (r' * 8 + c / 8)).getLsbD (7 - c % 8) = (decide (r' = r) && rowBit cx b c) := by
  unfold rowMask rowBit
  split
  · rename_i h
    have h1 : r' = r := by omega
    have h2 : c / 8 = cx / 8 := by omega
    rw [BitVec.getLsbD_ushiftRight, decide_eq_true h1, Bool.true_and]
    by_cases h3 : cx ≤ c
    · rw [decide_eq_true (by omega : cx ≤ c ∧ c < cx + 8), Bool.true_and,
        show cx % 8 + (7 - c % 8) = 7 - (c - cx) by omega]
    · rw [decide_eq_false (by omega : ¬ (cx ≤ c ∧ c < cx + 8)), Bool.false_and]
      exact BitVec.getLsbD_of_ge _ _ (by omega)
  · split
    · rename_i h1 h
      obtain ⟨h2, h3, h4⟩ := h
      have h5 : r' = r := by omega
      have h6 : c / 8 = cx / 8 + 1 := by omega
      rw [BitVec.getLsbD_shiftLeft, decide_eq_true h5, Bool.true_and]
      by_cases h7 : c < cx + 8
      · rw [decide_eq_true (by omega : cx ≤ c ∧ c < cx + 8), decide_eq_true (by omega : 7 - c % 8 < 8),
          decide_eq_false (by omega : ¬ 7 - c % 8 < 8 - cx % 8),
          show 7 - c % 8 - (8 - cx % 8) = 7 - (c - cx) by omega]
        rfl
      · rw [decide_eq_false (by omega : ¬ (cx ≤ c ∧ c < cx + 8)),
          decide_eq_true (by omega : 7 - c % 8 < 8 - cx % 8)]
        simp
    · rename_i h1 h2
      have h3 : ¬ (r' = r ∧ cx ≤ c ∧ c < cx + 8) := by omega
      by_cases h4 : r' = r
      · rw [decide_eq_false (by omega : ¬ (cx ≤ c ∧ c < cx + 8))]
        simp
      · simp [h4]

/-- One sprite row XORs its bits into the pixels of its row, and collides where a set pixel meets a set bit
(42_display.md R146, R148). -/
theorem blitRow_pixel (d : Display) {cx r : Nat} (b : Byte) (hcx : cx < 64) (hr : r < 32) :
    (∀ c r', c < 64 → (blitRow d cx r b).1.pixel c r' = (d.pixel c r' ^^ (decide (r' = r) && rowBit cx b c))) ∧
      ((blitRow d cx r b).2 = true ↔ ∃ c, c < 64 ∧ d.pixel c r = true ∧ rowBit cx b c = true) := by
  obtain ⟨hbyte, hflag⟩ := blitRow_spec d b hcx hr
  constructor
  · intro c r' hc
    simp only [Display.pixel, Config.rowBytes, hbyte, BitVec.getLsbD_xor, rowMask_pixel b hcx hc]
  · rw [hflag]
    constructor
    · rintro ⟨j, hj⟩
      obtain ⟨k, hk⟩ : ∃ k, (d.byte j &&& rowMask cx r b j).getLsbD k = true := by
        by_contra hc
        exact hj (BitVec.eq_of_getLsbD_eq fun k _ => by simpa using fun h => hc ⟨k, h⟩)
      rw [BitVec.getLsbD_and, Bool.and_eq_true] at hk
      have hk8 : k < 8 := by
        by_contra hge
        rw [BitVec.getLsbD_of_ge _ _ (by omega)] at hk
        simp at hk
      have hmask : rowMask cx r b j ≠ 0 := fun h => hj (by rw [h]; simp)
      have hj8 : j / 8 = r ∧ j < r * 8 + 8 := by
        unfold rowMask at hmask
        split at hmask
        · omega
        · split at hmask
          · omega
          · exact absurd rfl hmask
      refine ⟨j % 8 * 8 + (7 - k), by omega, ?_, ?_⟩
      · rw [Display.pixel, Config.rowBytes, show r * 8 + (j % 8 * 8 + (7 - k)) / 8 = j by omega,
          show 7 - (j % 8 * 8 + (7 - k)) % 8 = k by omega]
        exact hk.1
      · have h := rowMask_pixel (r := r) (r' := r) (c := j % 8 * 8 + (7 - k)) b hcx (by omega)
        rw [show r * 8 + (j % 8 * 8 + (7 - k)) / 8 = j by omega,
          show 7 - (j % 8 * 8 + (7 - k)) % 8 = k by omega, hk.2] at h
        simpa using h.symm
    · rintro ⟨c, hc, hp, hb⟩
      refine ⟨r * 8 + c / 8, fun h => ?_⟩
      have h' := congrArg (·.getLsbD (7 - c % 8)) h
      simp only [BitVec.getLsbD_and, rowMask_pixel b hcx hc, hb, decide_true, Bool.and_true] at h'
      exact absurd (hp.symm.trans h') (by simp)

/-- The bit that the rows `bs` of a sprite at (cx, cy) have for the pixel (c, r). -/
def rowsBit (cx cy : Nat) (bs : List Byte) (c r : Nat) : Bool :=
  decide (cy ≤ r ∧ r < cy + bs.length ∧ r < 32) && rowBit cx (bs.getD (r - cy) 0) c

theorem rowsBit_cons (cx cy : Nat) (b : Byte) (bs : List Byte) (c r : Nat) (hcy : cy < 32) :
    rowsBit cx cy (b :: bs) c r = if r = cy then rowBit cx b c else rowsBit cx (cy + 1) bs c r := by
  unfold rowsBit
  by_cases h : r = cy
  · subst h
    simp [hcy]
  · rw [if_neg h]
    by_cases h1 : cy + 1 ≤ r ∧ r < cy + 1 + bs.length ∧ r < 32
    · rw [decide_eq_true h1, decide_eq_true (by simp only [List.length_cons]; omega),
        show r - cy = (r - (cy + 1)) + 1 by omega]
      simp
    · rw [decide_eq_false h1, decide_eq_false (by simp only [List.length_cons]; omega)]
      simp

/-- The rows of a sprite XOR their bits into the pixels of the display, clipped at its bottom, and collide where a set
pixel meets a set bit (42_display.md R144, R146, R148). -/
theorem drawRows_pixel (d : Display) {cx : Nat} (cy : Nat) (bs : List Byte) (hcx : cx < 64) :
    (∀ c r, c < 64 → (drawRows d cx cy bs).1.pixel c r = (d.pixel c r ^^ rowsBit cx cy bs c r)) ∧
      ((drawRows d cx cy bs).2 = true ↔ ∃ c r, c < 64 ∧ d.pixel c r = true ∧ rowsBit cx cy bs c r = true) := by
  induction bs generalizing d cy with
  | nil =>
    have h : ∀ c r, rowsBit cx cy [] c r = false := fun c r => by
      rw [rowsBit, decide_eq_false (by simp only [List.length_nil]; omega), Bool.false_and]
    simp [drawRows, h]
  | cons b bs ih =>
    by_cases hcy : cy < 32
    · rw [drawRows_cons d cx b bs hcy]
      obtain ⟨hp, hf⟩ := blitRow_pixel d b hcx hcy
      obtain ⟨ihp, ihf⟩ := ih (blitRow d cx cy b).1 (cy + 1)
      have hrest : ∀ c, rowsBit cx (cy + 1) bs c cy = false := fun c => by simp [rowsBit]
      constructor
      · intro c r hc
        rw [ihp c r hc, hp c r hc, rowsBit_cons _ _ _ _ _ _ hcy]
        by_cases h : r = cy
        · subst h; simp [hrest]
        · simp [h]
      · simp only [Bool.or_eq_true, hf, ihf, rowsBit_cons _ _ _ _ _ _ hcy]
        constructor
        · rintro (⟨c, hc, h1, h2⟩ | ⟨c, r, hc, h1, h2⟩)
          · exact ⟨c, cy, hc, h1, by simpa using h2⟩
          · have h : r ≠ cy := by rintro rfl; simp [hrest] at h2
            rw [hp c r hc] at h1
            exact ⟨c, r, hc, by simpa [h] using h1, by simpa [h] using h2⟩
        · rintro ⟨c, r, hc, h1, h2⟩
          by_cases h : r = cy
          · subst h; exact .inl ⟨c, hc, h1, by simpa using h2⟩
          · refine .inr ⟨c, r, hc, ?_, by simpa [h] using h2⟩
            rw [hp c r hc]
            simpa [h] using h1
    · rw [drawRows_clipped d cx _ (by omega)]
      have h : ∀ c r, rowsBit cx cy (b :: bs) c r = false := fun c r => by
        rw [rowsBit, decide_eq_false (by omega), Bool.false_and]
      simp [h]

end Sys2Proof.Machine
end

