-- ==== Sys2Proof/Laws/Decode.lean ====
section
/-! SUPPORT. Words and their fields as numbers: what a field of a word is, what an encoded word is, and that the two
fit together (30_encoding.md R70). -/

namespace Sys2Proof

/-! ## Concatenation as a number -/

theorem toNat_append {n m : Nat} (a : BitVec n) (b : BitVec m) : (a ++ b).toNat = a.toNat * 2 ^ m + b.toNat := by
  rw [BitVec.toNat_append, ← Nat.shiftLeft_add_eq_or_of_lt b.isLt, Nat.shiftLeft_eq]

theorem encodeXY_toNat (op n : BitVec 4) (x y : Reg) :
    (encodeXY op x y n).toNat = op.toNat * 4096 + x.val * 256 + y.val * 16 + n.toNat := by
  have h := toNat_append (op ++ regBits x ++ regBits y) n
  rw [toNat_append (op ++ regBits x) (regBits y), toNat_append op (regBits x)] at h
  refine Eq.trans h ?_
  simp only [regBits, BitVec.toNat_ofFin]
  omega

theorem encodeXNn_toNat (op : BitVec 4) (x : Reg) (nn : Byte) :
    (encodeXNn op x nn).toNat = op.toNat * 4096 + x.val * 256 + nn.toNat := by
  have h := toNat_append (op ++ regBits x) nn
  rw [toNat_append op (regBits x)] at h
  refine Eq.trans h ?_
  simp only [regBits, BitVec.toNat_ofFin]
  omega

theorem encodeAddr_toNat (op : BitVec 4) (addr : Addr) :
    (encodeAddr op addr).toNat = op.toNat * 4096 + addr.toNat :=
  toNat_append op addr

theorem wordOfBytes_toNat (b1 b2 : Byte) : (wordOfBytes b1 b2).toNat = b1.toNat * 256 + b2.toNat :=
  toNat_append b1 b2

/-! ## Fields as numbers -/

theorem opField_toNat (w : Word) : (opField w).toNat = w.toNat / 4096 := by
  rw [opField, BitVec.extractLsb'_toNat, Nat.shiftRight_eq_div_pow]
  omega

theorem xField_val (w : Word) : (xField w).val = w.toNat / 256 % 16 := by
  refine Eq.trans (BitVec.extractLsb'_toNat 8 4 w) ?_
  rw [Nat.shiftRight_eq_div_pow]

theorem yField_val (w : Word) : (yField w).val = w.toNat / 16 % 16 := by
  refine Eq.trans (BitVec.extractLsb'_toNat 4 4 w) ?_
  rw [Nat.shiftRight_eq_div_pow]

theorem nField_toNat (w : Word) : (nField w).toNat = w.toNat % 16 := by
  rw [nField, BitVec.extractLsb'_toNat, Nat.shiftRight_zero]

theorem nnField_toNat (w : Word) : (nnField w).toNat = w.toNat % 256 := by
  rw [nnField, BitVec.extractLsb'_toNat, Nat.shiftRight_zero]

theorem addrField_toNat (w : Word) : (addrField w).toNat = w.toNat % 4096 := by
  rw [addrField, BitVec.extractLsb'_toNat, Nat.shiftRight_zero]

/-! ## The fields of an encoded word -/

@[simp] theorem opField_encodeXY (op n : BitVec 4) (x y : Reg) : opField (encodeXY op x y n) = op :=
  BitVec.eq_of_toNat_eq (by rw [opField_toNat, encodeXY_toNat]; omega)

@[simp] theorem xField_encodeXY (op n : BitVec 4) (x y : Reg) : xField (encodeXY op x y n) = x :=
  Fin.ext (by rw [xField_val, encodeXY_toNat]; omega)

@[simp] theorem yField_encodeXY (op n : BitVec 4) (x y : Reg) : yField (encodeXY op x y n) = y :=
  Fin.ext (by rw [yField_val, encodeXY_toNat]; omega)

@[simp] theorem nField_encodeXY (op n : BitVec 4) (x y : Reg) : nField (encodeXY op x y n) = n :=
  BitVec.eq_of_toNat_eq (by rw [nField_toNat, encodeXY_toNat]; omega)

@[simp] theorem opField_encodeXNn (op : BitVec 4) (x : Reg) (nn : Byte) : opField (encodeXNn op x nn) = op :=
  BitVec.eq_of_toNat_eq (by rw [opField_toNat, encodeXNn_toNat]; omega)

@[simp] theorem xField_encodeXNn (op : BitVec 4) (x : Reg) (nn : Byte) : xField (encodeXNn op x nn) = x :=
  Fin.ext (by rw [xField_val, encodeXNn_toNat]; omega)

@[simp] theorem nnField_encodeXNn (op : BitVec 4) (x : Reg) (nn : Byte) : nnField (encodeXNn op x nn) = nn :=
  BitVec.eq_of_toNat_eq (by rw [nnField_toNat, encodeXNn_toNat]; omega)

@[simp] theorem opField_encodeAddr (op : BitVec 4) (addr : Addr) : opField (encodeAddr op addr) = op :=
  BitVec.eq_of_toNat_eq (by rw [opField_toNat, encodeAddr_toNat]; omega)

@[simp] theorem addrField_encodeAddr (op : BitVec 4) (addr : Addr) : addrField (encodeAddr op addr) = addr :=
  BitVec.eq_of_toNat_eq (by rw [addrField_toNat, encodeAddr_toNat]; omega)

/-! ## A word from its fields -/

theorem encodeXY_fields (w : Word) : encodeXY (opField w) (xField w) (yField w) (nField w) = w :=
  BitVec.eq_of_toNat_eq (by rw [encodeXY_toNat, opField_toNat, xField_val, yField_val, nField_toNat]; omega)

theorem encodeXNn_fields (w : Word) : encodeXNn (opField w) (xField w) (nnField w) = w :=
  BitVec.eq_of_toNat_eq (by rw [encodeXNn_toNat, opField_toNat, xField_val, nnField_toNat]; omega)

theorem encodeAddr_fields (w : Word) : encodeAddr (opField w) (addrField w) = w :=
  BitVec.eq_of_toNat_eq (by rw [encodeAddr_toNat, opField_toNat, addrField_toNat]; omega)

/-- The bytes of a word make the word again (20_memory.md R53). -/
theorem wordOfBytes_bytesOfWord (w : Word) : wordOfBytes (bytesOfWord w).1 (bytesOfWord w).2 = w := by
  apply BitVec.eq_of_toNat_eq
  simp only [wordOfBytes_toNat, bytesOfWord, BitVec.extractLsb'_toNat, Nat.shiftRight_eq_div_pow]
  omega

/-! ## The masks of the opcode map -/

/-- The mask 0xF000 keeps the family (R76). -/
theorem mask_family (w : Word) : w &&& 0xF000 = encodeAddr (opField w) 0 := by
  have h : (opField w ++ addrField w) &&& (0xF#4 ++ 0x000#12) = opField w ++ 0x000#12 := by
    rw [BitVec.and_append, BitVec.and_zero, show opField w &&& 0xF#4 = opField w from BitVec.and_allOnes]
  exact (congrArg (· &&& (0xF000 : Word)) (encodeAddr_fields w)).symm.trans h

/-- The mask 0xF00F keeps the family and the low nibble (R76). -/
theorem mask_family_n (w : Word) : w &&& 0xF00F = encodeXY (opField w) 0 0 (nField w) := by
  have h : (opField w ++ regBits (xField w) ++ regBits (yField w) ++ nField w) &&& (0xF#4 ++ 0x0#4 ++ 0x0#4 ++ 0xF#4) =
      opField w ++ 0x0#4 ++ 0x0#4 ++ nField w := by
    rw [BitVec.and_append, BitVec.and_append, BitVec.and_append, BitVec.and_zero, BitVec.and_zero,
      show opField w &&& 0xF#4 = opField w from BitVec.and_allOnes,
      show nField w &&& 0xF#4 = nField w from BitVec.and_allOnes]
  exact (congrArg (· &&& (0xF00F : Word)) (encodeXY_fields w)).symm.trans h

end Sys2Proof
end

