-- ==== Sys2Proof/Laws/Flags.lean ====
section
/-! SUPPORT. What the results with a flag are, and the bounds of the sprite's start position. -/

namespace Sys2Proof.Machine

/-- The sum modulo 256, and the carry of the 9-bit sum (41_register_alu.md R126). -/
theorem addWithCarry_spec (a b : Byte) :
    (addWithCarry a b).1.toNat = (a.toNat + b.toNat) % 256 ∧
      ((addWithCarry a b).2 = true ↔ 256 ≤ a.toNat + b.toNat) := by
  simp [addWithCarry]

/-- In both branches the result is the difference modulo 256; the flag says that it is strictly positive
(41_register_alu.md R127). -/
theorem subWithFlag_spec (a b : Byte) :
    (subWithFlag a b).1 = a - b ∧ ((subWithFlag a b).2 = true ↔ b.toNat < a.toNat) := by
  unfold subWithFlag
  split
  · refine ⟨?_, by simpa⟩
    apply BitVec.eq_of_toNat_eq
    simp only [BitVec.toNat_ofNat, BitVec.toNat_sub]
    omega
  · refine ⟨?_, by simp; omega⟩
    apply BitVec.eq_of_toNat_eq
    simp only [BitVec.toNat_ofNat, BitVec.toNat_sub]
    omega

theorem flagByte_toNat (f : Bool) : (flagByte f).toNat = if f then 1 else 0 := by cases f <;> rfl

theorem startColumn_eq (b : Byte) : startColumn b = b.toNat % 64 := by
  simpa [startColumn] using Nat.and_two_pow_sub_one_eq_mod b.toNat 6

theorem startRow_eq (b : Byte) : startRow b = b.toNat % 32 := by
  simpa [startRow] using Nat.and_two_pow_sub_one_eq_mod b.toNat 5

theorem startColumn_lt (b : Byte) : startColumn b < 64 := by rw [startColumn_eq]; omega

theorem startRow_lt (b : Byte) : startRow b < 32 := by rw [startRow_eq]; omega

theorem zext16_toNat (addr : Addr) : (zext16 addr).toNat = addr.toNat := by
  simp only [zext16, BitVec.toNat_setWidth]
  omega

end Sys2Proof.Machine
end

