-- ==== Sys2Proof/Laws/State.lean ====
section
/-! SUPPORT. The fields of the state after each named update, and the registers read after each. -/

namespace Sys2Proof.Machine.State

/-! ### setReg -/

@[simp] theorem setReg_v (s : State) (x : Reg) (b : Byte) : (s.setReg x b).v = s.v.set x b := rfl
@[simp] theorem setReg_i (s : State) (x : Reg) (b : Byte) : (s.setReg x b).i = s.i := rfl
@[simp] theorem setReg_pc (s : State) (x : Reg) (b : Byte) : (s.setReg x b).pc = s.pc := rfl
@[simp] theorem setReg_stack (s : State) (x : Reg) (b : Byte) : (s.setReg x b).stack = s.stack := rfl
@[simp] theorem setReg_dt (s : State) (x : Reg) (b : Byte) : (s.setReg x b).dt = s.dt := rfl
@[simp] theorem setReg_st (s : State) (x : Reg) (b : Byte) : (s.setReg x b).st = s.st := rfl
@[simp] theorem setReg_mem (s : State) (x : Reg) (b : Byte) : (s.setReg x b).mem = s.mem := rfl
@[simp] theorem setReg_disp (s : State) (x : Reg) (b : Byte) : (s.setReg x b).disp = s.disp := rfl
@[simp] theorem setReg_fault (s : State) (x : Reg) (b : Byte) : (s.setReg x b).fault = s.fault := rfl
@[simp] theorem setReg_tExec (s : State) (x : Reg) (b : Byte) : (s.setReg x b).tExec = s.tExec := rfl
@[simp] theorem setReg_tTimer (s : State) (x : Reg) (b : Byte) : (s.setReg x b).tTimer = s.tTimer := rfl
@[simp] theorem setReg_params (s : State) (x : Reg) (b : Byte) : (s.setReg x b).params = s.params := rfl
@[simp] theorem setReg_events (s : State) (x : Reg) (b : Byte) : (s.setReg x b).events = s.events := rfl
@[simp] theorem setReg_pending (s : State) (x : Reg) (b : Byte) : (s.setReg x b).pending = s.pending := rfl

/-! ### setIndex -/

@[simp] theorem setIndex_v (s : State) (w : Word) : (s.setIndex w).v = s.v := rfl
@[simp] theorem setIndex_i (s : State) (w : Word) : (s.setIndex w).i = w := rfl
@[simp] theorem setIndex_pc (s : State) (w : Word) : (s.setIndex w).pc = s.pc := rfl
@[simp] theorem setIndex_stack (s : State) (w : Word) : (s.setIndex w).stack = s.stack := rfl
@[simp] theorem setIndex_dt (s : State) (w : Word) : (s.setIndex w).dt = s.dt := rfl
@[simp] theorem setIndex_st (s : State) (w : Word) : (s.setIndex w).st = s.st := rfl
@[simp] theorem setIndex_mem (s : State) (w : Word) : (s.setIndex w).mem = s.mem := rfl
@[simp] theorem setIndex_disp (s : State) (w : Word) : (s.setIndex w).disp = s.disp := rfl
@[simp] theorem setIndex_fault (s : State) (w : Word) : (s.setIndex w).fault = s.fault := rfl
@[simp] theorem setIndex_tExec (s : State) (w : Word) : (s.setIndex w).tExec = s.tExec := rfl
@[simp] theorem setIndex_tTimer (s : State) (w : Word) : (s.setIndex w).tTimer = s.tTimer := rfl
@[simp] theorem setIndex_params (s : State) (w : Word) : (s.setIndex w).params = s.params := rfl
@[simp] theorem setIndex_events (s : State) (w : Word) : (s.setIndex w).events = s.events := rfl
@[simp] theorem setIndex_pending (s : State) (w : Word) : (s.setIndex w).pending = s.pending := rfl
@[simp] theorem setIndex_reg (s : State) (w : Word) (z : Reg) : (s.setIndex w).reg z = s.reg z := rfl

/-! ### setPc -/

@[simp] theorem setPc_v (s : State) (w : Word) : (s.setPc w).v = s.v := rfl
@[simp] theorem setPc_i (s : State) (w : Word) : (s.setPc w).i = s.i := rfl
@[simp] theorem setPc_pc (s : State) (w : Word) : (s.setPc w).pc = w := rfl
@[simp] theorem setPc_stack (s : State) (w : Word) : (s.setPc w).stack = s.stack := rfl
@[simp] theorem setPc_dt (s : State) (w : Word) : (s.setPc w).dt = s.dt := rfl
@[simp] theorem setPc_st (s : State) (w : Word) : (s.setPc w).st = s.st := rfl
@[simp] theorem setPc_mem (s : State) (w : Word) : (s.setPc w).mem = s.mem := rfl
@[simp] theorem setPc_disp (s : State) (w : Word) : (s.setPc w).disp = s.disp := rfl
@[simp] theorem setPc_fault (s : State) (w : Word) : (s.setPc w).fault = s.fault := rfl
@[simp] theorem setPc_tExec (s : State) (w : Word) : (s.setPc w).tExec = s.tExec := rfl
@[simp] theorem setPc_tTimer (s : State) (w : Word) : (s.setPc w).tTimer = s.tTimer := rfl
@[simp] theorem setPc_params (s : State) (w : Word) : (s.setPc w).params = s.params := rfl
@[simp] theorem setPc_events (s : State) (w : Word) : (s.setPc w).events = s.events := rfl
@[simp] theorem setPc_pending (s : State) (w : Word) : (s.setPc w).pending = s.pending := rfl
@[simp] theorem setPc_reg (s : State) (w : Word) (z : Reg) : (s.setPc w).reg z = s.reg z := rfl

/-! ### setStack -/

@[simp] theorem setStack_v (s : State) (l : List Word) : (s.setStack l).v = s.v := rfl
@[simp] theorem setStack_i (s : State) (l : List Word) : (s.setStack l).i = s.i := rfl
@[simp] theorem setStack_pc (s : State) (l : List Word) : (s.setStack l).pc = s.pc := rfl
@[simp] theorem setStack_stack (s : State) (l : List Word) : (s.setStack l).stack = l := rfl
@[simp] theorem setStack_dt (s : State) (l : List Word) : (s.setStack l).dt = s.dt := rfl
@[simp] theorem setStack_st (s : State) (l : List Word) : (s.setStack l).st = s.st := rfl
@[simp] theorem setStack_mem (s : State) (l : List Word) : (s.setStack l).mem = s.mem := rfl
@[simp] theorem setStack_disp (s : State) (l : List Word) : (s.setStack l).disp = s.disp := rfl
@[simp] theorem setStack_fault (s : State) (l : List Word) : (s.setStack l).fault = s.fault := rfl
@[simp] theorem setStack_tExec (s : State) (l : List Word) : (s.setStack l).tExec = s.tExec := rfl
@[simp] theorem setStack_tTimer (s : State) (l : List Word) : (s.setStack l).tTimer = s.tTimer := rfl
@[simp] theorem setStack_params (s : State) (l : List Word) : (s.setStack l).params = s.params := rfl
@[simp] theorem setStack_events (s : State) (l : List Word) : (s.setStack l).events = s.events := rfl
@[simp] theorem setStack_pending (s : State) (l : List Word) : (s.setStack l).pending = s.pending := rfl
@[simp] theorem setStack_reg (s : State) (l : List Word) (z : Reg) : (s.setStack l).reg z = s.reg z := rfl

/-! ### setTimers -/

@[simp] theorem setTimers_v (s : State) (d t : Byte) : (s.setTimers d t).v = s.v := rfl
@[simp] theorem setTimers_i (s : State) (d t : Byte) : (s.setTimers d t).i = s.i := rfl
@[simp] theorem setTimers_pc (s : State) (d t : Byte) : (s.setTimers d t).pc = s.pc := rfl
@[simp] theorem setTimers_stack (s : State) (d t : Byte) : (s.setTimers d t).stack = s.stack := rfl
@[simp] theorem setTimers_dt (s : State) (d t : Byte) : (s.setTimers d t).dt = d := rfl
@[simp] theorem setTimers_st (s : State) (d t : Byte) : (s.setTimers d t).st = t := rfl
@[simp] theorem setTimers_mem (s : State) (d t : Byte) : (s.setTimers d t).mem = s.mem := rfl
@[simp] theorem setTimers_disp (s : State) (d t : Byte) : (s.setTimers d t).disp = s.disp := rfl
@[simp] theorem setTimers_fault (s : State) (d t : Byte) : (s.setTimers d t).fault = s.fault := rfl
@[simp] theorem setTimers_tExec (s : State) (d t : Byte) : (s.setTimers d t).tExec = s.tExec := rfl
@[simp] theorem setTimers_tTimer (s : State) (d t : Byte) : (s.setTimers d t).tTimer = s.tTimer := rfl
@[simp] theorem setTimers_params (s : State) (d t : Byte) : (s.setTimers d t).params = s.params := rfl
@[simp] theorem setTimers_events (s : State) (d t : Byte) : (s.setTimers d t).events = s.events := rfl
@[simp] theorem setTimers_pending (s : State) (d t : Byte) : (s.setTimers d t).pending = s.pending := rfl
@[simp] theorem setTimers_reg (s : State) (d t : Byte) (z : Reg) : (s.setTimers d t).reg z = s.reg z := rfl

/-! ### setMem -/

@[simp] theorem setMem_v (s : State) (m : Memory) : (s.setMem m).v = s.v := rfl
@[simp] theorem setMem_i (s : State) (m : Memory) : (s.setMem m).i = s.i := rfl
@[simp] theorem setMem_pc (s : State) (m : Memory) : (s.setMem m).pc = s.pc := rfl
@[simp] theorem setMem_stack (s : State) (m : Memory) : (s.setMem m).stack = s.stack := rfl
@[simp] theorem setMem_dt (s : State) (m : Memory) : (s.setMem m).dt = s.dt := rfl
@[simp] theorem setMem_st (s : State) (m : Memory) : (s.setMem m).st = s.st := rfl
@[simp] theorem setMem_mem (s : State) (m : Memory) : (s.setMem m).mem = m := rfl
@[simp] theorem setMem_disp (s : State) (m : Memory) : (s.setMem m).disp = s.disp := rfl
@[simp] theorem setMem_fault (s : State) (m : Memory) : (s.setMem m).fault = s.fault := rfl
@[simp] theorem setMem_tExec (s : State) (m : Memory) : (s.setMem m).tExec = s.tExec := rfl
@[simp] theorem setMem_tTimer (s : State) (m : Memory) : (s.setMem m).tTimer = s.tTimer := rfl
@[simp] theorem setMem_params (s : State) (m : Memory) : (s.setMem m).params = s.params := rfl
@[simp] theorem setMem_events (s : State) (m : Memory) : (s.setMem m).events = s.events := rfl
@[simp] theorem setMem_pending (s : State) (m : Memory) : (s.setMem m).pending = s.pending := rfl
@[simp] theorem setMem_reg (s : State) (m : Memory) (z : Reg) : (s.setMem m).reg z = s.reg z := rfl

/-! ### setDisp -/

@[simp] theorem setDisp_v (s : State) (d : Display) : (s.setDisp d).v = s.v := rfl
@[simp] theorem setDisp_i (s : State) (d : Display) : (s.setDisp d).i = s.i := rfl
@[simp] theorem setDisp_pc (s : State) (d : Display) : (s.setDisp d).pc = s.pc := rfl
@[simp] theorem setDisp_stack (s : State) (d : Display) : (s.setDisp d).stack = s.stack := rfl
@[simp] theorem setDisp_dt (s : State) (d : Display) : (s.setDisp d).dt = s.dt := rfl
@[simp] theorem setDisp_st (s : State) (d : Display) : (s.setDisp d).st = s.st := rfl
@[simp] theorem setDisp_mem (s : State) (d : Display) : (s.setDisp d).mem = s.mem := rfl
@[simp] theorem setDisp_disp (s : State) (d : Display) : (s.setDisp d).disp = d := rfl
@[simp] theorem setDisp_fault (s : State) (d : Display) : (s.setDisp d).fault = s.fault := rfl
@[simp] theorem setDisp_tExec (s : State) (d : Display) : (s.setDisp d).tExec = s.tExec := rfl
@[simp] theorem setDisp_tTimer (s : State) (d : Display) : (s.setDisp d).tTimer = s.tTimer := rfl
@[simp] theorem setDisp_params (s : State) (d : Display) : (s.setDisp d).params = s.params := rfl
@[simp] theorem setDisp_events (s : State) (d : Display) : (s.setDisp d).events = s.events := rfl
@[simp] theorem setDisp_pending (s : State) (d : Display) : (s.setDisp d).pending = s.pending := rfl
@[simp] theorem setDisp_reg (s : State) (d : Display) (z : Reg) : (s.setDisp d).reg z = s.reg z := rfl

/-! ### setFault -/

@[simp] theorem setFault_v (s : State) (f : Option FaultRecord) : (s.setFault f).v = s.v := rfl
@[simp] theorem setFault_i (s : State) (f : Option FaultRecord) : (s.setFault f).i = s.i := rfl
@[simp] theorem setFault_pc (s : State) (f : Option FaultRecord) : (s.setFault f).pc = s.pc := rfl
@[simp] theorem setFault_stack (s : State) (f : Option FaultRecord) : (s.setFault f).stack = s.stack := rfl
@[simp] theorem setFault_dt (s : State) (f : Option FaultRecord) : (s.setFault f).dt = s.dt := rfl
@[simp] theorem setFault_st (s : State) (f : Option FaultRecord) : (s.setFault f).st = s.st := rfl
@[simp] theorem setFault_mem (s : State) (f : Option FaultRecord) : (s.setFault f).mem = s.mem := rfl
@[simp] theorem setFault_disp (s : State) (f : Option FaultRecord) : (s.setFault f).disp = s.disp := rfl
@[simp] theorem setFault_fault (s : State) (f : Option FaultRecord) : (s.setFault f).fault = f := rfl
@[simp] theorem setFault_tExec (s : State) (f : Option FaultRecord) : (s.setFault f).tExec = s.tExec := rfl
@[simp] theorem setFault_tTimer (s : State) (f : Option FaultRecord) : (s.setFault f).tTimer = s.tTimer := rfl
@[simp] theorem setFault_params (s : State) (f : Option FaultRecord) : (s.setFault f).params = s.params := rfl
@[simp] theorem setFault_events (s : State) (f : Option FaultRecord) : (s.setFault f).events = s.events := rfl
@[simp] theorem setFault_pending (s : State) (f : Option FaultRecord) : (s.setFault f).pending = s.pending := rfl
@[simp] theorem setFault_reg (s : State) (f : Option FaultRecord) (z : Reg) : (s.setFault f).reg z = s.reg z := rfl

/-! ### setTExec -/

@[simp] theorem setTExec_v (s : State) (t : Time) : (s.setTExec t).v = s.v := rfl
@[simp] theorem setTExec_i (s : State) (t : Time) : (s.setTExec t).i = s.i := rfl
@[simp] theorem setTExec_pc (s : State) (t : Time) : (s.setTExec t).pc = s.pc := rfl
@[simp] theorem setTExec_stack (s : State) (t : Time) : (s.setTExec t).stack = s.stack := rfl
@[simp] theorem setTExec_dt (s : State) (t : Time) : (s.setTExec t).dt = s.dt := rfl
@[simp] theorem setTExec_st (s : State) (t : Time) : (s.setTExec t).st = s.st := rfl
@[simp] theorem setTExec_mem (s : State) (t : Time) : (s.setTExec t).mem = s.mem := rfl
@[simp] theorem setTExec_disp (s : State) (t : Time) : (s.setTExec t).disp = s.disp := rfl
@[simp] theorem setTExec_fault (s : State) (t : Time) : (s.setTExec t).fault = s.fault := rfl
@[simp] theorem setTExec_tExec (s : State) (t : Time) : (s.setTExec t).tExec = t := rfl
@[simp] theorem setTExec_tTimer (s : State) (t : Time) : (s.setTExec t).tTimer = s.tTimer := rfl
@[simp] theorem setTExec_params (s : State) (t : Time) : (s.setTExec t).params = s.params := rfl
@[simp] theorem setTExec_events (s : State) (t : Time) : (s.setTExec t).events = s.events := rfl
@[simp] theorem setTExec_pending (s : State) (t : Time) : (s.setTExec t).pending = s.pending := rfl
@[simp] theorem setTExec_reg (s : State) (t : Time) (z : Reg) : (s.setTExec t).reg z = s.reg z := rfl

/-! ### setTTimer -/

@[simp] theorem setTTimer_v (s : State) (t : Time) : (s.setTTimer t).v = s.v := rfl
@[simp] theorem setTTimer_i (s : State) (t : Time) : (s.setTTimer t).i = s.i := rfl
@[simp] theorem setTTimer_pc (s : State) (t : Time) : (s.setTTimer t).pc = s.pc := rfl
@[simp] theorem setTTimer_stack (s : State) (t : Time) : (s.setTTimer t).stack = s.stack := rfl
@[simp] theorem setTTimer_dt (s : State) (t : Time) : (s.setTTimer t).dt = s.dt := rfl
@[simp] theorem setTTimer_st (s : State) (t : Time) : (s.setTTimer t).st = s.st := rfl
@[simp] theorem setTTimer_mem (s : State) (t : Time) : (s.setTTimer t).mem = s.mem := rfl
@[simp] theorem setTTimer_disp (s : State) (t : Time) : (s.setTTimer t).disp = s.disp := rfl
@[simp] theorem setTTimer_fault (s : State) (t : Time) : (s.setTTimer t).fault = s.fault := rfl
@[simp] theorem setTTimer_tExec (s : State) (t : Time) : (s.setTTimer t).tExec = s.tExec := rfl
@[simp] theorem setTTimer_tTimer (s : State) (t : Time) : (s.setTTimer t).tTimer = t := rfl
@[simp] theorem setTTimer_params (s : State) (t : Time) : (s.setTTimer t).params = s.params := rfl
@[simp] theorem setTTimer_events (s : State) (t : Time) : (s.setTTimer t).events = s.events := rfl
@[simp] theorem setTTimer_pending (s : State) (t : Time) : (s.setTTimer t).pending = s.pending := rfl
@[simp] theorem setTTimer_reg (s : State) (t : Time) (z : Reg) : (s.setTTimer t).reg z = s.reg z := rfl

/-! ### emit -/

@[simp] theorem emit_v (s : State) (e : Event) : (s.emit e).v = s.v := rfl
@[simp] theorem emit_i (s : State) (e : Event) : (s.emit e).i = s.i := rfl
@[simp] theorem emit_pc (s : State) (e : Event) : (s.emit e).pc = s.pc := rfl
@[simp] theorem emit_stack (s : State) (e : Event) : (s.emit e).stack = s.stack := rfl
@[simp] theorem emit_dt (s : State) (e : Event) : (s.emit e).dt = s.dt := rfl
@[simp] theorem emit_st (s : State) (e : Event) : (s.emit e).st = s.st := rfl
@[simp] theorem emit_mem (s : State) (e : Event) : (s.emit e).mem = s.mem := rfl
@[simp] theorem emit_disp (s : State) (e : Event) : (s.emit e).disp = s.disp := rfl
@[simp] theorem emit_fault (s : State) (e : Event) : (s.emit e).fault = s.fault := rfl
@[simp] theorem emit_tExec (s : State) (e : Event) : (s.emit e).tExec = s.tExec := rfl
@[simp] theorem emit_tTimer (s : State) (e : Event) : (s.emit e).tTimer = s.tTimer := rfl
@[simp] theorem emit_params (s : State) (e : Event) : (s.emit e).params = s.params := rfl
@[simp] theorem emit_events (s : State) (e : Event) : (s.emit e).events = s.events ++ [e] := rfl
@[simp] theorem emit_pending (s : State) (e : Event) : (s.emit e).pending = s.pending := rfl
@[simp] theorem emit_reg (s : State) (e : Event) (z : Reg) : (s.emit e).reg z = s.reg z := rfl

/-! ### setPending -/

@[simp] theorem setPending_v (s : State) (q : List Command) : (s.setPending q).v = s.v := rfl
@[simp] theorem setPending_i (s : State) (q : List Command) : (s.setPending q).i = s.i := rfl
@[simp] theorem setPending_pc (s : State) (q : List Command) : (s.setPending q).pc = s.pc := rfl
@[simp] theorem setPending_stack (s : State) (q : List Command) : (s.setPending q).stack = s.stack := rfl
@[simp] theorem setPending_dt (s : State) (q : List Command) : (s.setPending q).dt = s.dt := rfl
@[simp] theorem setPending_st (s : State) (q : List Command) : (s.setPending q).st = s.st := rfl
@[simp] theorem setPending_mem (s : State) (q : List Command) : (s.setPending q).mem = s.mem := rfl
@[simp] theorem setPending_disp (s : State) (q : List Command) : (s.setPending q).disp = s.disp := rfl
@[simp] theorem setPending_fault (s : State) (q : List Command) : (s.setPending q).fault = s.fault := rfl
@[simp] theorem setPending_tExec (s : State) (q : List Command) : (s.setPending q).tExec = s.tExec := rfl
@[simp] theorem setPending_tTimer (s : State) (q : List Command) : (s.setPending q).tTimer = s.tTimer := rfl
@[simp] theorem setPending_params (s : State) (q : List Command) : (s.setPending q).params = s.params := rfl
@[simp] theorem setPending_events (s : State) (q : List Command) : (s.setPending q).events = s.events := rfl
@[simp] theorem setPending_pending (s : State) (q : List Command) : (s.setPending q).pending = q := rfl
@[simp] theorem setPending_reg (s : State) (q : List Command) (z : Reg) : (s.setPending q).reg z = s.reg z := rfl

/-! ### advance -/

@[simp] theorem advance_v (s : State) : s.advance.v = s.v := rfl
@[simp] theorem advance_i (s : State) : s.advance.i = s.i := rfl
@[simp] theorem advance_pc (s : State) : s.advance.pc = s.pc + 2 := rfl
@[simp] theorem advance_stack (s : State) : s.advance.stack = s.stack := rfl
@[simp] theorem advance_dt (s : State) : s.advance.dt = s.dt := rfl
@[simp] theorem advance_st (s : State) : s.advance.st = s.st := rfl
@[simp] theorem advance_mem (s : State) : s.advance.mem = s.mem := rfl
@[simp] theorem advance_disp (s : State) : s.advance.disp = s.disp := rfl
@[simp] theorem advance_fault (s : State) : s.advance.fault = s.fault := rfl
@[simp] theorem advance_tExec (s : State) : s.advance.tExec = s.tExec := rfl
@[simp] theorem advance_tTimer (s : State) : s.advance.tTimer = s.tTimer := rfl
@[simp] theorem advance_params (s : State) : s.advance.params = s.params := rfl
@[simp] theorem advance_events (s : State) : s.advance.events = s.events := rfl
@[simp] theorem advance_pending (s : State) : s.advance.pending = s.pending := rfl
@[simp] theorem advance_reg (s : State) (z : Reg) : s.advance.reg z = s.reg z := rfl

/-! ### push -/

@[simp] theorem push_v (s : State) (w : Word) : (s.push w).v = s.v := rfl
@[simp] theorem push_i (s : State) (w : Word) : (s.push w).i = s.i := rfl
@[simp] theorem push_pc (s : State) (w : Word) : (s.push w).pc = s.pc := rfl
@[simp] theorem push_stack (s : State) (w : Word) : (s.push w).stack = s.stack ++ [w] := rfl
@[simp] theorem push_dt (s : State) (w : Word) : (s.push w).dt = s.dt := rfl
@[simp] theorem push_st (s : State) (w : Word) : (s.push w).st = s.st := rfl
@[simp] theorem push_mem (s : State) (w : Word) : (s.push w).mem = s.mem := rfl
@[simp] theorem push_disp (s : State) (w : Word) : (s.push w).disp = s.disp := rfl
@[simp] theorem push_fault (s : State) (w : Word) : (s.push w).fault = s.fault := rfl
@[simp] theorem push_tExec (s : State) (w : Word) : (s.push w).tExec = s.tExec := rfl
@[simp] theorem push_tTimer (s : State) (w : Word) : (s.push w).tTimer = s.tTimer := rfl
@[simp] theorem push_params (s : State) (w : Word) : (s.push w).params = s.params := rfl
@[simp] theorem push_events (s : State) (w : Word) : (s.push w).events = s.events := rfl
@[simp] theorem push_pending (s : State) (w : Word) : (s.push w).pending = s.pending := rfl
@[simp] theorem push_reg (s : State) (w : Word) (z : Reg) : (s.push w).reg z = s.reg z := rfl

/-! ### skipIf -/

@[simp] theorem skipIf_v (s : State) (c : Bool) : (s.skipIf c).v = s.v := by cases c <;> rfl
@[simp] theorem skipIf_i (s : State) (c : Bool) : (s.skipIf c).i = s.i := by cases c <;> rfl
@[simp] theorem skipIf_pc (s : State) (c : Bool) : (s.skipIf c).pc = if c then s.pc + 2 + 2 else s.pc + 2 := by
  cases c <;> rfl
@[simp] theorem skipIf_stack (s : State) (c : Bool) : (s.skipIf c).stack = s.stack := by cases c <;> rfl
@[simp] theorem skipIf_dt (s : State) (c : Bool) : (s.skipIf c).dt = s.dt := by cases c <;> rfl
@[simp] theorem skipIf_st (s : State) (c : Bool) : (s.skipIf c).st = s.st := by cases c <;> rfl
@[simp] theorem skipIf_mem (s : State) (c : Bool) : (s.skipIf c).mem = s.mem := by cases c <;> rfl
@[simp] theorem skipIf_disp (s : State) (c : Bool) : (s.skipIf c).disp = s.disp := by cases c <;> rfl
@[simp] theorem skipIf_fault (s : State) (c : Bool) : (s.skipIf c).fault = s.fault := by cases c <;> rfl
@[simp] theorem skipIf_tExec (s : State) (c : Bool) : (s.skipIf c).tExec = s.tExec := by cases c <;> rfl
@[simp] theorem skipIf_tTimer (s : State) (c : Bool) : (s.skipIf c).tTimer = s.tTimer := by cases c <;> rfl
@[simp] theorem skipIf_params (s : State) (c : Bool) : (s.skipIf c).params = s.params := by cases c <;> rfl
@[simp] theorem skipIf_events (s : State) (c : Bool) : (s.skipIf c).events = s.events := by cases c <;> rfl
@[simp] theorem skipIf_pending (s : State) (c : Bool) : (s.skipIf c).pending = s.pending := by cases c <;> rfl
@[simp] theorem skipIf_reg (s : State) (c : Bool) (z : Reg) : (s.skipIf c).reg z = s.reg z := by cases c <;> rfl

/-! ### setRegFlag -/

@[simp] theorem setRegFlag_i (s : State) (x : Reg) (r : Byte × Bool) : (s.setRegFlag x r).i = s.i := rfl
@[simp] theorem setRegFlag_pc (s : State) (x : Reg) (r : Byte × Bool) : (s.setRegFlag x r).pc = s.pc := rfl
@[simp] theorem setRegFlag_stack (s : State) (x : Reg) (r : Byte × Bool) : (s.setRegFlag x r).stack = s.stack := rfl
@[simp] theorem setRegFlag_dt (s : State) (x : Reg) (r : Byte × Bool) : (s.setRegFlag x r).dt = s.dt := rfl
@[simp] theorem setRegFlag_st (s : State) (x : Reg) (r : Byte × Bool) : (s.setRegFlag x r).st = s.st := rfl
@[simp] theorem setRegFlag_mem (s : State) (x : Reg) (r : Byte × Bool) : (s.setRegFlag x r).mem = s.mem := rfl
@[simp] theorem setRegFlag_disp (s : State) (x : Reg) (r : Byte × Bool) : (s.setRegFlag x r).disp = s.disp := rfl
@[simp] theorem setRegFlag_fault (s : State) (x : Reg) (r : Byte × Bool) : (s.setRegFlag x r).fault = s.fault := rfl
@[simp] theorem setRegFlag_tExec (s : State) (x : Reg) (r : Byte × Bool) : (s.setRegFlag x r).tExec = s.tExec := rfl
@[simp] theorem setRegFlag_tTimer (s : State) (x : Reg) (r : Byte × Bool) : (s.setRegFlag x r).tTimer = s.tTimer := rfl
@[simp] theorem setRegFlag_params (s : State) (x : Reg) (r : Byte × Bool) : (s.setRegFlag x r).params = s.params := rfl
@[simp] theorem setRegFlag_events (s : State) (x : Reg) (r : Byte × Bool) : (s.setRegFlag x r).events = s.events := rfl
@[simp] theorem setRegFlag_pending (s : State) (x : Reg) (r : Byte × Bool) : (s.setRegFlag x r).pending = s.pending := rfl

/-! ### Registers -/

/-- A register reads as written, and every other register as before. -/
@[simp] theorem setReg_reg (s : State) (x z : Reg) (b : Byte) :
    (s.setReg x b).reg z = if z = x then b else s.reg z := by
  simp only [reg, setReg, Fin.getElem_fin, Vector.getElem_set, Fin.ext_iff, eq_comm]

/-- A result written with its flag: VF holds the flag even when it is the destination (41_register_alu.md R131). -/
@[simp] theorem setRegFlag_reg (s : State) (x z : Reg) (r : Byte × Bool) :
    (s.setRegFlag x r).reg z = if z = vf then flagByte r.2 else if z = x then r.1 else s.reg z := by
  simp only [setRegFlag, setReg_reg]

/-- Two register files that read alike are equal. -/
theorem v_eq_of_reg_eq {s t : State} (h : ∀ z, t.reg z = s.reg z) : t.v = s.v :=
  Vector.ext fun k hk => h ⟨k, hk⟩

end Sys2Proof.Machine.State
end

