-- ==== Sys2Proof/Laws/Ops.lean ====
section
/-! SUPPORT. One lemma for each shared operation on the state: the stack, the fetch, a fatal condition, Construct. -/

namespace Sys2Proof.Machine

theorem State.pop_of_nil {s : State} (h : s.stack = []) : s.pop = none := by simp [State.pop, h]

theorem State.pop_of_append {s : State} {l : List Word} {w : Word} (h : s.stack = l ++ [w]) :
    s.pop = some (w, s.setStack l) := by simp [State.pop, h]

/-- What a pop answers: nothing on the empty stack, else the last element and the stack before it. -/
theorem State.pop_cases (s : State) :
    (s.stack = [] ∧ s.pop = none) ∨ ∃ l w, s.stack = l ++ [w] ∧ s.pop = some (w, s.setStack l) := by
  rcases List.eq_nil_or_concat s.stack with h | ⟨l, w, h⟩
  · exact .inl ⟨h, pop_of_nil h⟩
  · exact .inr ⟨l, w, by simpa using h, pop_of_append (by simpa using h)⟩

/-- A fetch reads the big-endian word at the PC when both its bytes exist (20_memory.md R53, R55). -/
theorem fetchWord_eq (s : State) :
    fetchWord s = if s.pc.toNat ≤ 0xFFE then
      some (wordOfBytes (s.mem.byte s.pc.toNat) (s.mem.byte (s.pc.toNat + 1))) else none := by
  unfold fetchWord
  rw [Memory.read?_eq, Memory.read?_eq]
  by_cases h : s.pc.toNat ≤ 0xFFE
  · rw [if_pos (by omega), if_pos (by omega), if_pos h]
  · rw [if_neg (by omega : ¬ s.pc.toNat + 1 ≤ 0xFFF), if_neg h]
    split <;> simp_all

/-- A fatal condition sets the fault record and changes nothing else (60_exceptions.md R160). -/
theorem raise_eq_next {code : FaultCode} {word : Option Word} {s t : State} (h : raise code word s = .next t) :
    t = s.setFault (some { code := code, pc := s.pc, word := word }) := by
  simpa [raise, eq_comm] using h

/-- Construct of sizes that fit answers the reset state with the loaded memory (70_reset_and_hazards.md R191). -/
theorem construct_of_fit (p : Config.Params) {program : List Byte} {font : Option (List Byte)} (now : Time)
    (hp : program.length ≤ 3584) (hf : ∀ f, font = some f → f.length = 80) :
    construct p program font now =
      .ok { State.reset with mem := loadMemory program font, tExec := now, tTimer := now, params := p } := by
  have hbad : badFontLength font = none := by
    cases font with
    | none => rfl
    | some f => simp [badFontLength, hf f rfl]
  simp [construct, Nat.not_lt.mpr hp, hbad]

/-- Construct answers a state only when the sizes fit (70_reset_and_hazards.md R190). -/
theorem construct_ok {p : Config.Params} {program : List Byte} {font : Option (List Byte)} {now : Time} {t : State}
    (h : construct p program font now = .ok t) :
    program.length ≤ 3584 ∧ (∀ f, font = some f → f.length = 80) ∧
      t = { State.reset with mem := loadMemory program font, tExec := now, tTimer := now, params := p } := by
  unfold construct at h
  split at h
  · simp at h
  · rename_i hp
    split at h
    · simp at h
    · rename_i hf
      refine ⟨by simpa using hp, fun f hfont => ?_, by simpa [eq_comm] using h⟩
      subst hfont
      by_contra hne
      simp [badFontLength, hne] at hf

/-- The reset state is what Construct makes of the empty program and the built-in font at time 0. -/
theorem construct_reset : construct Config.Params.source [] none 0 = .ok State.reset := rfl

end Sys2Proof.Machine
end

