-- ==== Sys2Proof/Laws/PerInstr.lean ====
section
/-! SUPPORT. Per instruction: its word stands in its row of the opcode map (30_encoding.md R76). -/

namespace Sys2Proof.Laws

/-- The row of the opcode map and the fixed bits of the encoding agree. -/
def EncodeRow.Statement (i : Instr) : Prop := i.row.selects (encode i) = true

namespace EncodeRow

/-- A row that fixes the family only. -/
theorem of_family {w bits : Word} {p : String} (h : encodeAddr (opField w) 0 = bits) :
    (OpcodeRow.mk p bits 0xF000).selects w = true := by
  simp only [OpcodeRow.selects, mask_family, h, decide_true]

/-- A row that fixes the family and the low nibble. -/
theorem of_family_n {w bits : Word} {p : String} (h : encodeXY (opField w) 0 0 (nField w) = bits) :
    (OpcodeRow.mk p bits 0xF00F).selects w = true := by
  simp only [OpcodeRow.selects, mask_family_n, h, decide_true]

theorem cls : Statement .cls := rfl
theorem ret : Statement .ret := rfl
theorem jp (addr : Addr) : Statement (.jp addr) := of_family (by rw [encode, opField_encodeAddr]; rfl)
theorem call (addr : Addr) : Statement (.call addr) := of_family (by rw [encode, opField_encodeAddr]; rfl)
theorem seImm (x : Reg) (nn : Byte) : Statement (.seImm x nn) := of_family (by rw [encode, opField_encodeXNn]; rfl)
theorem sneImm (x : Reg) (nn : Byte) : Statement (.sneImm x nn) := of_family (by rw [encode, opField_encodeXNn]; rfl)
theorem seReg (x y : Reg) : Statement (.seReg x y) :=
  of_family_n (by rw [encode, opField_encodeXY, nField_encodeXY]; rfl)
theorem ldImm (x : Reg) (nn : Byte) : Statement (.ldImm x nn) := of_family (by rw [encode, opField_encodeXNn]; rfl)
theorem addImm (x : Reg) (nn : Byte) : Statement (.addImm x nn) := of_family (by rw [encode, opField_encodeXNn]; rfl)
theorem ldReg (x y : Reg) : Statement (.ldReg x y) :=
  of_family_n (by rw [encode, opField_encodeXY, nField_encodeXY]; rfl)
theorem orReg (x y : Reg) : Statement (.orReg x y) :=
  of_family_n (by rw [encode, opField_encodeXY, nField_encodeXY]; rfl)
theorem andReg (x y : Reg) : Statement (.andReg x y) :=
  of_family_n (by rw [encode, opField_encodeXY, nField_encodeXY]; rfl)
theorem xorReg (x y : Reg) : Statement (.xorReg x y) :=
  of_family_n (by rw [encode, opField_encodeXY, nField_encodeXY]; rfl)
theorem addReg (x y : Reg) : Statement (.addReg x y) :=
  of_family_n (by rw [encode, opField_encodeXY, nField_encodeXY]; rfl)
theorem subReg (x y : Reg) : Statement (.subReg x y) :=
  of_family_n (by rw [encode, opField_encodeXY, nField_encodeXY]; rfl)
theorem subnReg (x y : Reg) : Statement (.subnReg x y) :=
  of_family_n (by rw [encode, opField_encodeXY, nField_encodeXY]; rfl)
theorem sneReg (x y : Reg) : Statement (.sneReg x y) :=
  of_family_n (by rw [encode, opField_encodeXY, nField_encodeXY]; rfl)
theorem ldI (addr : Addr) : Statement (.ldI addr) := of_family (by rw [encode, opField_encodeAddr]; rfl)
theorem drw (x y : Reg) (n : Nat) : Statement (.drw x y n) := of_family (by rw [encode, opField_encodeXY]; rfl)

end EncodeRow

end Sys2Proof.Laws
end

