-- ==== Sys2Proof/Laws/Step.lean ====
section
/-! SUPPORT. What one instruction, one Cycle, one Tick and one step can do, said once. -/

namespace Sys2Proof.Machine

/-! ## Instructions -/

/-- Every instruction answers a next state: it raises the one condition it can, or it completes and leaves alone what
no instruction writes. -/
theorem exec_cases (i : Instr) (s : State) :
    (∃ code w, code ≠ .fetchOutOfRange ∧ exec i s = raise code (some w) s) ∨
      ∃ t, exec i s = .next t ∧ t.dt = s.dt ∧ t.st = s.st ∧ t.mem = s.mem ∧ t.fault = s.fault ∧
        t.tExec = s.tExec ∧ t.tTimer = s.tTimer ∧ t.params = s.params ∧ t.pending = s.pending := by
  cases i with
  | ret =>
    rcases s.pop_cases with ⟨-, h⟩ | ⟨l, w, -, h⟩
    · exact .inl ⟨.stackUnderflow, _, by simp, by simp only [exec, execRet, h]; rfl⟩
    · exact .inr ⟨(s.setStack l).setPc w, by simp only [exec, execRet, h], rfl, rfl, rfl, rfl, rfl, rfl, rfl, rfl⟩
  | call addr =>
    by_cases h : s.params.stackLimit = some s.stack.length
    · exact .inl ⟨.stackOverflow, _, by simp, by simp only [exec, execCall, if_pos h]; rfl⟩
    · exact .inr ⟨(s.push s.advance.pc).setPc (zext16 addr), by simp only [exec, execCall, if_neg h],
        rfl, rfl, rfl, rfl, rfl, rfl, rfl, rfl⟩
  | drw x y n =>
    cases h : s.mem.readBytes s.i.toNat n with
    | none => exact .inl ⟨.spriteReadOutOfRange, _, by simp, by simp only [exec, execDrw, h]; rfl⟩
    | some rows =>
      simp only [exec, execDrw, h]
      exact .inr ⟨_, rfl, rfl, rfl, rfl, rfl, rfl, rfl, rfl, rfl⟩
  | seImm x nn => exact .inr ⟨_, rfl, by simp⟩
  | sneImm x nn => exact .inr ⟨_, rfl, by simp⟩
  | seReg x y => exact .inr ⟨_, rfl, by simp⟩
  | sneReg x y => exact .inr ⟨_, rfl, by simp⟩
  | _ => exact .inr ⟨_, rfl, rfl, rfl, rfl, rfl, rfl, rfl, rfl, rfl⟩

/-! ## Commands -/

/-- A Cycle of a running block raises a condition of the fetch or the decoding, or runs the decoded instruction
(30_encoding.md R82). -/
theorem cycle_cases {s : State} (hf : s.fault = none) :
    (0xFFE < s.pc.toNat ∧ cycle s = raise .fetchOutOfRange none s) ∨
      (s.pc.toNat ≤ 0xFFE ∧ ∃ w, w = wordOfBytes (s.mem.byte s.pc.toNat) (s.mem.byte (s.pc.toNat + 1)) ∧
        ((decode w = none ∧ cycle s = raise .unimplementedOpcode (some w) s) ∨
          ∃ i, decode w = some i ∧ cycle s = exec i s)) := by
  unfold cycle
  rw [hf, fetchWord_eq]
  by_cases h : s.pc.toNat ≤ 0xFFE
  · refine .inr ⟨h, _, rfl, ?_⟩
    rw [if_pos h]
    cases hd : decode (wordOfBytes (s.mem.byte s.pc.toNat) (s.mem.byte (s.pc.toNat + 1))) with
    | none => exact .inl ⟨rfl, by simp [hd]⟩
    | some i => exact .inr ⟨i, rfl, by simp [hd]⟩
  · exact .inl ⟨by omega, by rw [if_neg h]⟩

/-- A stopped block accepts no Cycle (60_exceptions.md R160). -/
theorem cycle_stopped {s : State} {r : FaultRecord} (hf : s.fault = some r) : cycle s = .fault (.stopped r) := by
  simp only [cycle, hf]

theorem countDown_toNat (t : Byte) : (countDown t).toNat = t.toNat - 1 := by
  unfold countDown
  split
  · rw [BitVec.toNat_sub]; simp; omega
  · omega

/-- A Tick of a running block counts both timers down and beeps while ST is nonzero (60_exceptions.md R174). -/
theorem tick_running {s : State} (hf : s.fault = none) :
    tick s = .next ((if 0 < s.st.toNat then s.emit .beep else s).setTimers (countDown s.dt) (countDown s.st)) := by
  simp only [tick, hf]

/-- A stopped block accepts no Tick (60_exceptions.md R160). -/
theorem tick_stopped {s : State} {r : FaultRecord} (hf : s.fault = some r) : tick s = .fault (.stopped r) := by
  simp only [tick, hf]

/-- Only a running block answers a Cycle with a next state. -/
theorem cycle_next_running {s t : State} (h : cycle s = .next t) : s.fault = none := by
  cases hf : s.fault with
  | none => rfl
  | some r => rw [cycle_stopped hf] at h; cases h

/-- What no Cycle writes. -/
theorem cycle_keeps {s t : State} (h : cycle s = .next t) :
    t.dt = s.dt ∧ t.st = s.st ∧ t.mem = s.mem ∧ t.tExec = s.tExec ∧ t.tTimer = s.tTimer ∧
      t.params = s.params ∧ t.pending = s.pending := by
  rcases cycle_cases (cycle_next_running h) with ⟨-, hc⟩ | ⟨-, w, -, ⟨-, hc⟩ | ⟨i, -, hc⟩⟩ <;> rw [hc] at h
  · rw [raise_eq_next h]; exact ⟨rfl, rfl, rfl, rfl, rfl, rfl, rfl⟩
  · rw [raise_eq_next h]; exact ⟨rfl, rfl, rfl, rfl, rfl, rfl, rfl⟩
  · rcases exec_cases i s with ⟨c, w', -, he⟩ | ⟨u, he, h1, h2, h3, -, h5, h6, h7, h8⟩ <;> rw [he] at h
    · rw [raise_eq_next h]; exact ⟨rfl, rfl, rfl, rfl, rfl, rfl, rfl⟩
    · cases h; exact ⟨h1, h2, h3, h5, h6, h7, h8⟩

/-- What a Tick that is accepted does, and that the block was running. -/
theorem tick_next {s t : State} (h : tick s = .next t) :
    s.fault = none ∧
      t = { s with dt := countDown s.dt, st := countDown s.st,
                   events := s.events ++ (if 0 < s.st.toNat then [.beep] else []) } := by
  cases hf : s.fault with
  | some r => rw [tick_stopped hf] at h; cases h
  | none =>
    rw [tick_running hf] at h
    cases h
    refine ⟨rfl, ?_⟩
    split <;> simp [State.setTimers, State.emit, hf]

/-- The timer part of Update: a Tick that is due, or nothing (60_exceptions.md R177). -/
theorem updateTimer_next {now : Time} {s t : State} (h : updateTimer now s = .next t) :
    (s.params.timerPeriod < now - s.tTimer ∧ ∃ u, tick s = .next u ∧ t = u.setTTimer now) ∨
      (now - s.tTimer ≤ s.params.timerPeriod ∧ t = s) := by
  unfold updateTimer at h
  split at h
  · rename_i hd
    cases ht : tick s with
    | next u => rw [ht] at h; cases h; exact .inl ⟨hd, u, rfl, rfl⟩
    | fault r => rw [ht] at h; cases h
    | refused r => rw [ht] at h; cases h
  · rename_i hd
    cases h
    exact .inr ⟨not_lt.mp hd, rfl⟩

/-- Update: a Cycle that is due, which ends it by a fault, and then the timer part (60_exceptions.md R177). -/
theorem update_next {now : Time} {s t : State} (h : update now s = .next t) :
    (s.params.execPeriod < now - s.tExec ∧ ∃ u, cycle s = .next u ∧
        ((u.fault ≠ none ∧ t = u) ∨ (u.fault = none ∧ updateTimer now (u.setTExec now) = .next t))) ∨
      (now - s.tExec ≤ s.params.execPeriod ∧ updateTimer now s = .next t) := by
  unfold update at h
  split at h
  · rename_i hd
    cases hc : cycle s with
    | next u =>
      rw [hc] at h
      refine .inl ⟨hd, u, rfl, ?_⟩
      cases hf : u.fault with
      | none => exact .inr ⟨rfl, by simpa [hf] using h⟩
      | some r => exact .inl ⟨by simp, by simpa [hf, eq_comm] using h⟩
    | fault r => rw [hc] at h; cases h
    | refused r => rw [hc] at h; cases h
  · rename_i hd
    exact .inr ⟨not_lt.mp hd, h⟩

/-- Update on a stopped block: not accepted when one of its parts is due, else without effect
(60_exceptions.md R160; log 13). -/
theorem update_stopped {s : State} {r : FaultRecord} (now : Time) (hf : s.fault = some r) :
    update now s =
      if s.params.execPeriod < now - s.tExec ∨ s.params.timerPeriod < now - s.tTimer then .fault (.stopped r)
      else .next s := by
  unfold update updateTimer
  rw [cycle_stopped hf, tick_stopped hf]
  split <;> simp [*]

/-! ## Steps -/

/-- With no command listed the step is a Cycle (log 1). -/
theorem step_of_nil {s : State} (h : s.pending = []) : step s = cycle s := by
  have hs : s.setPending [] = s := by cases s; cases h; rfl
  simp only [step, nextCommand, h, List.headD_nil, List.tail_nil, runCommand, hs]

/-- A listed command is taken and run (log 1). -/
theorem step_of_cons {s : State} {c : Command} {q : List Command} (h : s.pending = c :: q) :
    step s = runCommand c (s.setPending q) := by
  simp [step, nextCommand, h]

/-- Where the host's next command is a Cycle, listed or not, the step is that Cycle (log 1). -/
theorem step_of_nextCommand_cycle {s : State} (h : nextCommand s = .cycle) :
    step s = cycle (s.setPending s.pending.tail) := by
  rw [step, h, runCommand]

/-- Every step that answers a next state is one of the commands (60_exceptions.md R180). -/
theorem step_next {s t : State} (h : step s = .next t) :
    (∃ program font now u, nextCommand s = .construct program font now ∧
        construct s.params program font now = .ok u ∧ t = u.setPending s.pending.tail) ∨
      (nextCommand s = .cycle ∧ cycle (s.setPending s.pending.tail) = .next t) ∨
      (nextCommand s = .tick ∧ tick (s.setPending s.pending.tail) = .next t) ∨
      (∃ now, nextCommand s = .update now ∧ update now (s.setPending s.pending.tail) = .next t) ∨
      (nextCommand s ∈ [Command.readMemory, .readDisplay, .readFault] ∧ t = s.setPending s.pending.tail) := by
  unfold step at h
  cases hc : nextCommand s with
  | construct program font now =>
    rw [hc] at h
    simp only [runCommand, State.setPending_params, State.setPending_pending] at h
    cases hk : construct s.params program font now with
    | ok u => rw [hk] at h; cases h; exact .inl ⟨_, _, _, u, rfl, hk, rfl⟩
    | error e => rw [hk] at h; cases h
  | cycle => rw [hc] at h; exact .inr (.inl ⟨rfl, h⟩)
  | tick => rw [hc] at h; exact .inr (.inr (.inl ⟨rfl, h⟩))
  | update now => rw [hc] at h; exact .inr (.inr (.inr (.inl ⟨now, rfl, h⟩)))
  | readMemory => rw [hc] at h; cases h; simp
  | readDisplay => rw [hc] at h; cases h; simp
  | readFault => rw [hc] at h; cases h; simp

end Sys2Proof.Machine
end

