-- ==== Sys2Proof/Laws/Run.lean ====
section
/-! SUPPORT. Several steps of the machine behind the host's interface. -/

namespace Sys2Proof.Laws

/-- A run whose first step answers a next state goes on from it. -/
theorem run_of_next (M : Host.Core) {k : Nat} {s t : M.State} (h : M.step s = .next t) :
    M.run (k + 1) s = M.run k t := by
  have hs : M.run (k + 1) s =
      match M.step s with
      | .next s' => M.run k s'
      | .fault r => .fault r
      | .refused r => .refused r := rfl
  rw [hs, h]

/-- The same of the block. -/
theorem core_run_of_next {k : Nat} {s t : Machine.State} (h : Machine.step s = .next t) :
    Host.Core.run Sys2Proof.core (k + 1) s = Host.Core.run Sys2Proof.core k t :=
  run_of_next Sys2Proof.core h

end Sys2Proof.Laws
end

