-- ==== Sys2Proof/Tests/Slice0.lean ====
section
/-! SUPPORT. Checks of the model against the vectors of spec/95_test_vectors.md and the encodings of
spec/30_encoding.md, and for every obligation with hypotheses a state and operands that meet them. -/

namespace Sys2Proof.Tests

open Sys2Proof.Machine

/-! ## WellFormed -/

/-- 20 sprite rows cannot be encoded (90_conflicts.md C8), nor can 16. -/
theorem test_wf_refuses_20_rows : Instr.wf (.drw 0 1 20) = false := by decide
theorem test_wf_refuses_16_rows : Instr.wf (.drw 0 1 16) = false := by decide
theorem test_wf_accepts_15_rows : Instr.wf (.drw 0 1 15) = true := by decide

/-! ## Decode: words written out from the patterns of R76 -/

theorem test_decode_cls : decode 0b0000000011100000 = some .cls := by decide
theorem test_decode_ret : decode 0b0000000011101110 = some .ret := by decide
theorem test_decode_jp : decode 0b0001001000110100 = some (.jp 0b001000110100) := by decide
theorem test_decode_call : decode 0b0010101010111100 = some (.call 0b101010111100) := by decide
theorem test_decode_seImm : decode 0b0011010001010110 = some (.seImm 4 0b01010110) := by decide
theorem test_decode_sneImm : decode 0b0100111011111101 = some (.sneImm 14 0b11111101) := by decide
theorem test_decode_seReg : decode 0b0101000100100000 = some (.seReg 1 2) := by decide
theorem test_decode_ldImm : decode 0b0110101000111100 = some (.ldImm 10 0b00111100) := by decide
theorem test_decode_addImm : decode 0b0111111100000001 = some (.addImm 15 1) := by decide
theorem test_decode_ldReg : decode 0b1000000100100000 = some (.ldReg 1 2) := by decide
theorem test_decode_orReg : decode 0b1000000100100001 = some (.orReg 1 2) := by decide
theorem test_decode_andReg : decode 0b1000000100100010 = some (.andReg 1 2) := by decide
theorem test_decode_xorReg : decode 0b1000000100100011 = some (.xorReg 1 2) := by decide
theorem test_decode_addReg : decode 0b1000000100100100 = some (.addReg 1 2) := by decide
theorem test_decode_subReg : decode 0b1000000100100101 = some (.subReg 1 2) := by decide
theorem test_decode_subnReg : decode 0b1000000100100111 = some (.subnReg 1 2) := by decide
theorem test_decode_sneReg : decode 0b1001000100100000 = some (.sneReg 1 2) := by decide
theorem test_decode_ldI : decode 0b1010000001010000 = some (.ldI 0x050) := by decide
theorem test_decode_drw : decode 0b1101000100101111 = some (.drw 1 2 15) := by decide

/-- Vectors V-SK11, V-SK12, V-AL36, V-FT1, V-FT2, V-FT3. -/
theorem test_decode_unimplemented :
    [0x5121, 0x9121, 0x8016, 0x0000, 0xF015, 0x0123].all (fun w => (decode w).isNone) = true := by decide

/-- The more significant byte comes first (R53). -/
theorem test_decodeBytes_big_endian : decodeBytes [0x12, 0x04, 0xFF] = .ok (.jp 0x204, [0xFF]) := by decide
theorem test_decodeTableWord : decodeTableWord 16 0x8125 = some (.subReg 1 2) := by decide

/-! ## One step on a small state -/

/-- The state a step answers. -/
def nextOf : Host.Outcome State Fault Refusal → Option State
  | .next t => some t
  | .fault _ => none
  | .refused _ => none

/-- Reset with registers set. -/
def withRegs (l : List (Reg × Byte)) : State := l.foldl (fun s p => s.setReg p.1 p.2) State.reset

/-- One step of `s` with the word `w` where it fetches. -/
def run1 (s : State) (w : Nat) : Option State := nextOf (step (s.withFetchWord 16 w))

/-- Registers and PC after one step. -/
def regsAfter (l : List (Reg × Byte)) (w : Nat) (zs : List Reg) : Option (List Byte × Word) :=
  (run1 (withRegs l) w).map fun t => (zs.map t.reg, t.pc)

/-- V-CF1. -/
theorem test_jp : (run1 State.reset 0x1204).map State.pc = some 0x204 := by decide
/-- V-CF5, and V-CF7 at the limit. -/
theorem test_call : (run1 State.reset 0x2208).map (fun t => (t.pc, t.stack)) = some (0x208, [0x202]) := by decide
theorem test_call_overflow :
    (run1 { State.reset with stack := [0x202, 0x202], params := { Config.Params.source with stackLimit := some 2 } }
      0x2200).map (fun t => (t.pc, t.stack, t.fault)) =
      some (0x200, [0x202, 0x202], some ⟨.stackOverflow, 0x200, some 0x2200⟩) := by decide
/-- V-CF9 and V-CF10. -/
theorem test_ret : (run1 { State.reset with stack := [0x2, 0x202] } 0x00EE).map (fun t => (t.pc, t.stack)) =
    some (0x202, [0x2]) := by decide
theorem test_ret_underflow : (run1 State.reset 0x00EE).map (fun t => (t.pc, t.fault)) =
    some (0x200, some ⟨.stackUnderflow, 0x200, some 0x00EE⟩) := by decide
/-- V-SK1 to V-SK10. -/
theorem test_seImm : regsAfter [(3, 0x12)] 0x3312 [] = some ([], 0x204) ∧
    regsAfter [(3, 0x12)] 0x3313 [] = some ([], 0x202) := by decide
theorem test_sneImm : regsAfter [(3, 0x12)] 0x4313 [] = some ([], 0x204) ∧
    regsAfter [(3, 0x12)] 0x4312 [] = some ([], 0x202) := by decide
theorem test_seReg : regsAfter [(1, 7), (2, 7)] 0x5120 [] = some ([], 0x204) ∧
    regsAfter [(1, 7), (2, 8)] 0x5120 [] = some ([], 0x202) := by decide
theorem test_sneReg : regsAfter [(1, 7), (2, 8)] 0x9120 [] = some ([], 0x204) ∧
    regsAfter [(1, 7), (2, 7)] 0x9120 [] = some ([], 0x202) := by decide
/-- V-AL1, V-AL2. -/
theorem test_ldImm : regsAfter [(15, 1)] 0x6A3C [10, 15] = some ([0x3C, 1], 0x202) := by decide
/-- V-AL3, V-AL6. -/
theorem test_addImm_no_carry : regsAfter [(0, 1), (15, 0x77)] 0x70FF [0, 15] = some ([0, 0x77], 0x202) := by decide
theorem test_addImm_vf : regsAfter [(15, 0xFF)] 0x7F01 [15] = some ([0], 0x202) := by decide
/-- V-AL7 to V-AL11. -/
theorem test_ldReg : regsAfter [(2, 0x55)] 0x8120 [1, 2] = some ([0x55, 0x55], 0x202) := by decide
theorem test_orReg : regsAfter [(1, 0x0F), (2, 0xF0), (15, 0x55)] 0x8121 [1, 15] = some ([0xFF, 0x55], 0x202) := by
  decide
theorem test_andReg : regsAfter [(1, 0x3C), (2, 0x0F), (15, 0x55)] 0x8122 [1, 15] = some ([0x0C, 0x55], 0x202) := by
  decide
theorem test_xorReg : regsAfter [(1, 0x3C), (2, 0x0F), (15, 0x55)] 0x8123 [1, 15] = some ([0x33, 0x55], 0x202) := by
  decide
/-- V-AL13 and V-AL20. -/
theorem test_addReg : regsAfter [(1, 0xFF), (2, 1)] 0x8124 [1, 2, 15] = some ([0, 1, 1], 0x202) := by decide
theorem test_addReg_vf : regsAfter [(15, 0xF0), (1, 0x20)] 0x8F14 [15, 1] = some ([1, 0x20], 0x202) := by decide
/-- V-AL23 and V-AL24. -/
theorem test_subReg : regsAfter [(1, 3), (2, 5)] 0x8125 [1, 2, 15] = some ([0xFE, 5, 0], 0x202) := by decide
theorem test_subReg_equal : regsAfter [(1, 7), (2, 7), (15, 1)] 0x8125 [1, 15] = some ([0, 0], 0x202) := by decide
/-- V-AL30 and V-AL34. -/
theorem test_subnReg : regsAfter [(1, 3), (2, 5)] 0x8127 [1, 2, 15] = some ([2, 5, 1], 0x202) := by decide
theorem test_subnReg_vf : regsAfter [(15, 2), (1, 9)] 0x8F17 [15] = some ([1], 0x202) := by decide
/-- V-AL38. -/
theorem test_ldI : (run1 State.reset 0xAFFF).map State.i = some 0x0FFF := by decide

/-- V-DS1. -/
theorem test_cls : (run1 { State.reset with disp := [(0, 0xFF), (255, 1)] } 0x00E0).map
    (fun t => (t.disp, t.events)) = some ([], []) := by decide

/-- Reset with I = 0x300, sprite bytes there, registers and a display. -/
def withSprite (rows : List Host.Cell) (l : List (Reg × Byte)) (d : Display) : State :=
  { withRegs l with i := 0x300, mem := rows, disp := d }

/-- V-DS4: a row split over two bytes, with a collision in the left one; the event carries the display after it. -/
theorem test_drw_split_collision :
    (run1 (withSprite [(0x300, 0xFF)] [(0, 3)] [(0, 0x10)]) 0xD011).map (fun t => (t.disp, t.reg 15, t.events)) =
      some ([(0, 0x0F), (1, 0xE0)], 1, [.draw [(0, 0x0F), (1, 0xE0)]]) := by decide
/-- V-DS8, V-DS12, V-DS16: the right clip, the bottom clip, and a row taken from the old VF. -/
theorem test_drw_clip :
    (run1 (withSprite [(0x300, 0xFF)] [(0, 60)] []) 0xD011).map State.disp = some [(7, 0x0F)] ∧
    (run1 (withSprite [(0x300, 0xAA), (0x301, 0x55)] [(1, 30)] []) 0xD01F).map State.disp =
      some [(240, 0xAA), (248, 0x55)] ∧
    (run1 (withSprite [(0x300, 0x80)] [(15, 9)] []) 0xD0F1).map (fun t => (t.disp, t.reg 15)) =
      some ([(72, 0x80)], 0) := by decide
/-- V-DS20: a row beyond 0xFFF faults even if it would be clipped. -/
theorem test_drw_range :
    (run1 { withRegs [(1, 31)] with i := 0xFFF } 0xD012).map (fun t => (t.pc, t.disp, t.events, t.fault)) =
      some (0x200, [], [], some ⟨.spriteReadOutOfRange, 0x200, some 0xD012⟩) := by decide

/-! ## Faults, Construct and timers -/

/-- V-FT1: the empty program faults on its first Cycle. -/
theorem test_empty_program : (nextOf (step State.reset)).map (fun t => (t.pc, t.fault)) =
    some (0x200, some ⟨.unimplementedOpcode, 0x200, some 0⟩) := by decide
/-- V-CF3: the fetch at 0xFFF. -/
theorem test_fetch_range : (nextOf (step { State.reset with pc := 0xFFF })).map State.fault =
    some (some ⟨.fetchOutOfRange, 0xFFF, none⟩) := by decide
/-- V-TM1, its first Tick, and V-FT4. -/
theorem test_tick : (nextOf (step { State.reset with dt := 2, st := 3, pending := [.tick] })).map
    (fun t => (t.dt, t.st, t.events, t.pc)) = some (1, 2, [.beep], 0x200) := by decide
theorem test_stopped_tick :
    nextOf (step { State.reset with fault := some ⟨.stackUnderflow, 0x200, none⟩, pending := [.tick] }) = none := by
  decide
/-- S8: an Update after 0.002 s runs one Cycle, a further 0.001 s later none. -/
theorem test_update : (nextOf (step { State.reset.withFetchWord 16 0x6005 with pending := [.update (2 / 1000)] })).map
    (fun t => (t.reg 0, t.tExec, t.tTimer)) = some (5, 2 / 1000, 0) := by decide +kernel
/-- V-FT5 and P6: Construct leaves the fault state, and its program is in memory at 0x200. -/
theorem test_construct :
    (nextOf (step { State.reset with
      fault := some ⟨.stackUnderflow, 0x202, some 0x00EE⟩
      pending := [.construct [0x60, 0x01] none 0] })).map
      (fun t => (t.fault, t.pc, t.mem)) = some (none, 0x200, [(0x200, 0x60), (0x201, 0x01)]) := by decide

/-! ## Witnesses: a state and operands that meet the hypotheses of each obligation -/

/-- A running block at PC with a word there and nothing else. -/
def atWord (pc : Word) (w : Nat) : State := { State.reset with pc := pc }.withFetchWord 16 w

theorem witness_DecodeOfEncode : Instr.wf (.drw 15 15 15) = true ∧ Instr.wf (.jp 0xFFF) = true := by decide
theorem witness_EncodeOfDecode : decode 0xDFFF = some (.drw 15 15 15) := by decide
theorem witness_DecodeAgreesWithOpcodeMap :
    decode 0x9FF0 = some (.sneReg 15 15) ∧ Instr.row (.sneReg 15 15) ∈ opcodeMap ∧ decode 0x9FF1 = none := by decide
theorem witness_ConstructLoads_fits :
    (List.replicate 3584 (0 : Byte)).length ≤ 3584 ∧ (List.replicate 80 (0 : Byte)).length = 80 := by
  simp only [List.length_replicate, Nat.le_refl, and_self]
theorem witness_ConstructLoads_too_large : 3584 < (List.replicate 3585 (0 : Byte)).length := by
  rw [List.length_replicate]; decide
theorem witness_ConstructLoads_bad_font :
    ([] : List Byte).length ≤ 3584 ∧ (List.replicate 79 (0 : Byte)).length ≠ 80 := by decide
theorem witness_ConstructRestarts :
    State.pending { State.reset with fault := some ⟨.stackOverflow, 0x200, some 0x2200⟩,
                                     pending := [.construct [0x12, 0x00] none 3, .cycle] } =
      .construct [0x12, 0x00] none 3 :: [.cycle] := rfl
/-- A font of 79 bytes: the refusal at step (R167). -/
theorem witness_ConstructRestarts_refused :
    step { State.reset with pending := [.construct [] (some (List.replicate 79 0)) 3] } =
      .refused (.constructError (.fontSizeInvalid 79)) := rfl
theorem witness_StepRuns_pending_empty :
    (atWord 0xFFE 0x00E0).fault = none ∧ (atWord 0xFFE 0x00E0).pc.toNat ≤ 0xFFE ∧
      decode (wordOfBytes ((atWord 0xFFE 0x00E0).mem.byte 0xFFE) ((atWord 0xFFE 0x00E0).mem.byte 0xFFF)) = some .cls ∧
      (atWord 0xFFE 0x00E0).pending = [] := by decide
theorem witness_StepRuns_pending_cycle :
    ({ atWord 0x201 0x1201 with pending := [.cycle, .tick] } : State).pending = .cycle :: [.tick] ∧
      decode (wordOfBytes ((atWord 0x201 0x1201).mem.byte 0x201) ((atWord 0x201 0x1201).mem.byte 0x202)) =
        some (.jp 0x201) := by decide
theorem witness_FetchPastTheTop :
    ({ State.reset with pc := 0xFFF } : State).fault = none ∧ ({ State.reset with pc := 0xFFF } : State).pending = [] ∧
      0xFFE < ({ State.reset with pc := 0xFFF } : State).pc.toNat := by decide
theorem witness_UnimplementedWord :
    (atWord 0xFFE 0x5121).fault = none ∧ (atWord 0xFFE 0x5121).pending = [] ∧ (atWord 0xFFE 0x5121).pc.toNat ≤ 0xFFE ∧
      decode (wordOfBytes ((atWord 0xFFE 0x5121).mem.byte 0xFFE) ((atWord 0xFFE 0x5121).mem.byte 0xFFF)) = none := by
  decide
theorem witness_CycleFaults_each_code :
    faultOfCycle { State.reset with pc := 0xFFF } = some .fetchOutOfRange ∧
    faultOfCycle (atWord 0xFFE 0x0000) = some .unimplementedOpcode ∧
    faultOfCycle (atWord 0x200 0x00EE) = some .stackUnderflow ∧
    faultOfCycle { atWord 0x200 0x2200 with params := { Config.Params.source with stackLimit := some 0 } } =
      some .stackOverflow ∧
    faultOfCycle { atWord 0x200 0xD012 with i := 0xFFF } = some .spriteReadOutOfRange ∧
    faultOfCycle { atWord 0x200 0xD011 with i := 0xFFF } = none := by decide
theorem witness_Faulting_listed_cycle :
    nextCommand { State.reset with pc := 0x1002, pending := [.cycle, .tick] } = .cycle ∧
    (nextOf (step { State.reset with pc := 0x1002, pending := [.cycle, .tick] })).map (fun t => (t.fault, t.pending)) =
      some (some ⟨.fetchOutOfRange, 0x1002, none⟩, [.tick]) ∧
    (nextOf (step { State.reset with pending := [.cycle, .tick] })).map (fun t => (t.fault, t.pending)) =
      some (some ⟨.unimplementedOpcode, 0x200, some 0⟩, [.tick]) := by decide
theorem witness_StoppedBlock :
    ({ State.reset with fault := some ⟨.stackUnderflow, 0x200, some 0x00EE⟩, pending := [.tick] } : State).fault =
      some ⟨.stackUnderflow, 0x200, some 0x00EE⟩ := rfl
theorem witness_RetPops : ({ State.reset with stack := [0x1000, 0x202] } : State).stack = [0x1000] ++ [0x202] ∧
    State.reset.stack = [] := by decide
theorem witness_Call :
    State.reset.params.stackLimit ≠ some State.reset.stack.length ∧
    ({ State.reset with params := { Config.Params.source with stackLimit := some 0 } } : State).params.stackLimit =
      some 0 := by decide
theorem witness_Parked :
    (atWord 0x200 0x1200).fault = none ∧ (atWord 0x200 0x1200).pending = [] ∧
      decode (wordOfBytes ((atWord 0x200 0x1200).mem.byte 0x200) ((atWord 0x200 0x1200).mem.byte 0x201)) =
        some (.jp 0x200) ∧ (0x200 : Addr).toNat = (atWord 0x200 0x1200).pc.toNat := by decide
theorem witness_Drw_last_byte : ({ State.reset with i := 0xFFF } : State).i.toNat + 1 - 1 ≤ 0xFFF := by decide
/-- The clauses of the split at their boundaries: the last column with a next byte (55), the last byte at offset 0 (56)
and at offset 7 (63, the rest dropped); expected bytes by hand from 42_display.md R145. -/
theorem witness_DrwOfOneRow_clauses :
    ([55, 56, 63].map fun c => (run1 (withSprite [(0x300, 0xFF)] [(0, c), (1, 31)] []) 0xD011).map State.disp) =
      [some [(254, 0x01), (255, 0xFE)], some [(255, 0xFF)], some [(255, 0x01)]] := by decide
/-- The clauses of the sum and of the difference where they meet (41_register_alu.md R126, R127). -/
theorem witness_AddSub_clauses :
    regsAfter [(1, 0xFE), (2, 1)] 0x8124 [1, 15] = some ([0xFF, 0], 0x202) ∧
    regsAfter [(1, 4), (2, 3)] 0x8125 [1, 15] = some ([1, 1], 0x202) := by decide
theorem witness_CallThenRet :
    ({ State.reset with stack := [0x202], params := { Config.Params.source with stackLimit := some 2 } } :
      State).params.stackLimit ≠ some 1 := by decide
theorem witness_DrwPastTheTop :
    0xFFF < ({ State.reset with i := 0xFFF } : State).i.toNat + 2 - 1 ∧
    0xFFF < ({ State.reset with i := 0xFF2 } : State).i.toNat + 15 - 1 := by decide
theorem witness_DrwTwice : (0 : Reg) ≠ 15 ∧ (14 : Reg) ≠ 15 ∧
    ({ State.reset with i := 0xFF1 } : State).i.toNat + 15 - 1 ≤ 0xFFF := by decide
theorem witness_Tick :
    ({ State.reset with dt := 2, st := 3, pending := [.tick, .cycle] } : State).pending = .tick :: [.cycle] ∧
    ({ State.reset with dt := 2, st := 3, pending := [.tick, .cycle] } : State).fault = none := by decide
theorem witness_Ticks :
    ({ State.reset with st := 3, pending := [.tick, .tick, .cycle] } : State).pending =
      List.replicate 2 .tick ++ [.cycle] := by decide
theorem witness_CycleAndTick :
    ((nextOf (cycle { atWord 0x200 0xD011 with st := 3 })).map State.fault = some none) ∧
    (((nextOf (cycle { atWord 0x200 0xD011 with st := 3 })).bind fun t => nextOf (tick t)).isSome = true) := by decide
theorem witness_Update_times :
    (0 : Time) - State.reset.tExec ≤ State.reset.params.execPeriod ∧
    State.reset.params.execPeriod < (1 : Time) - State.reset.tExec ∧
    State.reset.params.timerPeriod < (1 : Time) - State.reset.tTimer := by decide +kernel
theorem witness_Update_cycle :
    (nextOf (cycle (atWord 0x200 0x1200))).map State.fault = some none ∧
    (nextOf (cycle State.reset)).map (fun t => t.fault.isSome) = some true := by decide
/-- A stopped block with periods of 2 s and 1/60 s. -/
def stoppedBlock (q : List Command) : State :=
  { State.reset with
    params := { stackLimit := none, execPeriod := 2, timerPeriod := 1 / 60 }
    fault := some ⟨.stackUnderflow, 0x200, some 0x00EE⟩
    pending := q }
/-- On a stopped block, at time 0 nothing is due, and at time 1 the timer part alone (log 13). -/
theorem witness_Update_stopped :
    nextOf (step (stoppedBlock [.update 0, .cycle])) = some (stoppedBlock [.cycle]) ∧
    (nextOf (step (stoppedBlock [.update 1]))).isSome = false ∧
    (1 : Time) - (stoppedBlock []).tExec ≤ (stoppedBlock []).params.execPeriod ∧
    (stoppedBlock []).params.timerPeriod < (1 : Time) - (stoppedBlock []).tTimer := by decide +kernel
theorem witness_UpdateAgain :
    (nextOf (update 1 (atWord 0x200 0x1200))).map State.fault = some none ∧
    ((1 + 1 / 1000 : Time) - 1 ≤ State.reset.params.execPeriod) := by decide +kernel
theorem witness_ReadPorts :
    ({ State.reset with pending := [.readMemory] } : State).pending = .readMemory :: [] := rfl
theorem witness_RegisterWriters :
    (nextOf (exec (.subReg 1 2) (withRegs [(1, 5), (2, 3)]))).map (fun t => (t.reg 1, t.reg 15)) = some (2, 1) := by
  decide
theorem witness_RestWriters :
    (nextOf (exec (.ldI 0xFFF) State.reset)).map State.i = some 0xFFF ∧
    (nextOf (exec (.call 0xFFF) State.reset)).map State.stack = some [0x202] ∧
    (nextOf (exec .cls { State.reset with disp := [(0, 1)] })).map State.disp = some [] ∧
    (nextOf (exec (.drw 0 0 0) State.reset)).map State.events = some [.draw []] := by decide
theorem witness_OnlyConstruct :
    nextCommand { State.reset with pending := [.update 1] } = .update 1 ∧
    (nextOf (step { State.reset with pending := [.update 1] })).isSome = true := by decide +kernel
theorem witness_CanonicalMemories : Memory.wf [(0, 1), (0xFFF, 1)] := by
  refine ⟨by simp, fun c hc => ?_⟩
  simp only [List.mem_cons, List.not_mem_nil, or_false] at hc
  rcases hc with rfl | rfl <;> decide
theorem witness_EveryStep : (nextOf (step (atWord 0x200 0x6A3C))).map (·.reg 10) = some 0x3C := by decide
theorem witness_OnlyConstructClears :
    (nextOf (step (stoppedBlock [.readFault]))).map State.fault = some (stoppedBlock []).fault ∧
    (stoppedBlock []).fault.isSome = true := by decide

end Sys2Proof.Tests
end

section
/-! Proofs about control transfer (40_control_flow.md): the frames of the PC updates, what each instruction answers,
and the obligations on return, jump and the immediate skips. -/

namespace Sys2Proof.Machine

/-! ## Frames of the PC updates -/

/-- Writing the stack and then the PC keeps all but those two. -/
theorem keepsDisplay_setStack_setPc (s : State) (l : List Word) (w : Word) :
    KeepsDisplay [] s ((s.setStack l).setPc w) :=
  { reg := fun _ _ => rfl, dt := rfl, st := rfl, mem := fun _ => rfl, fault := rfl, tExec := rfl, tTimer := rfl,
    params := rfl, pending := rfl, disp := fun _ => rfl, events := rfl }

/-- Writing the PC keeps every other piece of state: it is the case above with the stack as it was. -/
theorem keepsRest_setPc (s : State) (w : Word) : KeepsRest [] s (s.setPc w) :=
  { keepsDisplay_setStack_setPc s s.stack w with i := rfl, stack := rfl }

/-- A skip is one write of the PC, 4 or 2 past the instruction. -/
theorem State.skipIf_eq_setPc (s : State) (c : Bool) : s.skipIf c = s.setPc (s.pc + if c then 4 else 2) := by
  cases c with
  | false => rfl
  | true =>
    have hpc : s.pc + 2 + 2 = s.pc + 4 := by bv_omega
    exact congrArg s.setPc hpc

/-! ## What the instructions answer -/

/-- RET on a stack with a top takes it off and jumps there (40_control_flow.md R100). -/
theorem exec_ret_of_append {s : State} {l : List Word} {ra : Word} (h : s.stack = l ++ [ra]) :
    exec .ret s = .next ((s.setStack l).setPc ra) := by
  simp only [exec, execRet, State.pop_of_append h]

/-- RET on the empty stack raises STACK_UNDERFLOW (60_exceptions.md R162). -/
theorem exec_ret_of_nil {s : State} (h : s.stack = []) :
    exec .ret s = .next (s.setFault (some { code := .stackUnderflow, pc := s.pc, word := some 0x00EE })) := by
  simp only [exec, execRet, State.pop_of_nil h, raise, encode]

theorem exec_jp (addr : Addr) (s : State) : exec (.jp addr) s = .next (s.setPc (zext16 addr)) := rfl

theorem exec_seImm (x : Reg) (nn : Byte) (s : State) :
    exec (.seImm x nn) s = .next (s.setPc (s.pc + if s.reg x = nn then 4 else 2)) := by
  simp only [exec, execSeImm, State.skipIf_eq_setPc, beq_iff_eq]

theorem exec_sneImm (x : Reg) (nn : Byte) (s : State) :
    exec (.sneImm x nn) s = .next (s.setPc (s.pc + if s.reg x ≠ nn then 4 else 2)) := by
  simp only [exec, execSneImm, State.skipIf_eq_setPc, bne_iff_ne]

end Sys2Proof.Machine
end

section

open Sys2Proof Sys2Proof.Machine

/-- Settles O15, by the two cases of the pop. -/
theorem retPopsOrUnderflows : Obligations.RetPopsOrUnderflows := by
  intro s
  constructor
  · intro l ra h
    exact ⟨_, exec_ret_of_append h, rfl, rfl, rfl, keepsDisplay_setStack_setPc s l ra⟩
  · intro h
    exact ⟨_, exec_ret_of_nil h, rfl⟩

/-- Settles O16: the jump is one write of the PC, and zero extension keeps the number. -/
theorem jpSetsPc : Obligations.JpSetsPc := fun s addr =>
  ⟨_, exec_jp addr s, zext16_toNat addr, keepsRest_setPc s _⟩

/-- Settles O19: each skip is one write of the PC. -/
theorem skipsOnImmediate : Obligations.SkipsOnImmediate := by
  intro s x nn
  constructor
  · exact ⟨_, exec_seImm x nn s, rfl, keepsRest_setPc s _⟩
  · exact ⟨_, exec_sneImm x nn s, rfl, keepsRest_setPc s _⟩

end

section
/-! Proofs about the register loads, the arithmetic and the index load (41_register_alu.md): the frames of a register
write and of an index write after the advance, what each instruction answers, and the obligations on those that write
no flag. -/

namespace Sys2Proof.Machine

/-! ## Frames of the two writes -/

theorem State.setReg_reg_same (s : State) (x : Reg) (b : Byte) : (s.setReg x b).reg x = b := by
  rw [State.setReg_reg, if_pos rfl]

theorem State.setReg_reg_of_ne (s : State) {x z : Reg} (b : Byte) (h : z ≠ x) : (s.setReg x b).reg z = s.reg z := by
  rw [State.setReg_reg, if_neg h]

/-- Writing one register after the advance keeps every piece of state but that register and the PC; VF is kept too,
unless it is the register written. -/
theorem keepsRest_advance_setReg (s : State) (x : Reg) (b : Byte) : KeepsRest [x] s (s.advance.setReg x b) :=
  { reg := fun _ hz => State.setReg_reg_of_ne s.advance b (List.ne_of_not_mem_cons hz)
    dt := rfl, st := rfl, mem := fun _ => rfl, fault := rfl, tExec := rfl, tTimer := rfl, params := rfl,
    pending := rfl, disp := fun _ => rfl, events := rfl, i := rfl, stack := rfl }

/-- Writing the index register after the advance keeps every register, the display and the events. -/
theorem keepsDisplay_advance_setIndex (s : State) (w : Word) : KeepsDisplay [] s (s.advance.setIndex w) :=
  { reg := fun _ _ => rfl, dt := rfl, st := rfl, mem := fun _ => rfl, fault := rfl, tExec := rfl, tTimer := rfl,
    params := rfl, pending := rfl, disp := fun _ => rfl, events := rfl }

/-! ## What the instructions answer -/

theorem exec_ldImm (x : Reg) (nn : Byte) (s : State) : exec (.ldImm x nn) s = .next (s.advance.setReg x nn) := rfl

theorem exec_addImm (x : Reg) (nn : Byte) (s : State) :
    exec (.addImm x nn) s = .next (s.advance.setReg x (s.reg x + nn)) := rfl

theorem exec_ldReg (x y : Reg) (s : State) : exec (.ldReg x y) s = .next (s.advance.setReg x (s.reg y)) := rfl

theorem exec_orReg (x y : Reg) (s : State) :
    exec (.orReg x y) s = .next (s.advance.setReg x (s.reg x ||| s.reg y)) := rfl

theorem exec_andReg (x y : Reg) (s : State) :
    exec (.andReg x y) s = .next (s.advance.setReg x (s.reg x &&& s.reg y)) := rfl

theorem exec_xorReg (x y : Reg) (s : State) :
    exec (.xorReg x y) s = .next (s.advance.setReg x (s.reg x ^^^ s.reg y)) := rfl

theorem exec_ldI (addr : Addr) (s : State) : exec (.ldI addr) s = .next (s.advance.setIndex (zext16 addr)) := rfl

/-- An instruction that is one register write after the advance: what holds of the byte written holds of that register
afterwards, the PC is past the instruction, and nothing else changed. -/
theorem exists_next_of_advance_setReg {i : Instr} {s : State} {x : Reg} {b : Byte} (P : Byte → Prop)
    (h : exec i s = .next (s.advance.setReg x b)) (hb : P b) :
    ∃ t, exec i s = .next t ∧ P (t.reg x) ∧ t.pc = s.pc + 2 ∧ KeepsRest [x] s t :=
  ⟨_, h, (State.setReg_reg_same s.advance x b).symm ▸ hb, rfl, keepsRest_advance_setReg s x b⟩

end Sys2Proof.Machine
end

section

open Sys2Proof Sys2Proof.Machine

/-- Settles O22: each load is one register write. -/
theorem loadsWriteTheirRegister : Obligations.LoadsWriteTheirRegister := by
  intro s x y nn
  constructor
  · exact exists_next_of_advance_setReg (· = nn) (exec_ldImm x nn s) rfl
  · exact exists_next_of_advance_setReg (· = s.reg y) (exec_ldReg x y s) rfl

/-- Settles O23: the byte written is the sum of two bytes, which is the sum of their numbers modulo 256. -/
theorem addImmediateSetsNoFlag : Obligations.AddImmediateSetsNoFlag := fun s x nn =>
  exists_next_of_advance_setReg (fun b => b.toNat = ((s.reg x).toNat + nn.toNat) % 256) (exec_addImm x nn s)
    (BitVec.toNat_add (s.reg x) nn)

/-- Settles O24: each operation is one register write, of a byte whose bits are known one by one. -/
theorem logicIsBitwiseAndSetsNoFlag : Obligations.LogicIsBitwiseAndSetsNoFlag := by
  intro s x y
  refine ⟨?or, ?and, ?xor⟩
  case or =>
    exact exists_next_of_advance_setReg (fun b => ∀ k, b.getLsbD k = ((s.reg x).getLsbD k || (s.reg y).getLsbD k))
      (exec_orReg x y s) fun _ => BitVec.getLsbD_or
  case and =>
    exact exists_next_of_advance_setReg (fun b => ∀ k, b.getLsbD k = ((s.reg x).getLsbD k && (s.reg y).getLsbD k))
      (exec_andReg x y s) fun _ => BitVec.getLsbD_and
  case xor =>
    exact exists_next_of_advance_setReg (fun b => ∀ k, b.getLsbD k = ((s.reg x).getLsbD k ^^ (s.reg y).getLsbD k))
      (exec_xorReg x y s) fun _ => BitVec.getLsbD_xor

/-- Settles O28: the load is one write of the index register, and zero extension keeps the number. -/
theorem ldISetsIndex : Obligations.LdISetsIndex := fun s addr =>
  ⟨_, exec_ldI addr s, zext16_toNat addr, rfl, rfl, keepsDisplay_advance_setIndex s _⟩

end

section
/-! Proofs about fatal conditions and the timers (60_exceptions.md): what a Cycle on an unimplemented word and a Tick
on a running block answer, and the obligations on both. -/

namespace Sys2Proof.Machine

/-- A running block whose fetched word does not decode raises UNIMPLEMENTED_OPCODE with that word
(60_exceptions.md R161). -/
theorem cycle_of_unimplemented {s : State} {w : Word} (hf : s.fault = none) (hpc : s.pc.toNat ≤ 0xFFE)
    (hw : w = wordOfBytes (s.mem.byte s.pc.toNat) (s.mem.byte (s.pc.toNat + 1))) (hd : decode w = none) :
    cycle s = raise .unimplementedOpcode (some w) s := by
  have hfetch : fetchWord s = some w := by rw [fetchWord_eq, if_pos hpc, hw]
  simp only [cycle, hf, hfetch, hd]

/-- A Tick of a running block writes the two timers and the events, and nothing else (60_exceptions.md R174). -/
theorem tick_eq_next {s : State} (hf : s.fault = none) :
    tick s = .next { s with dt := countDown s.dt, st := countDown s.st,
                            events := s.events ++ (if s.st = 0 then [] else [.beep]) } := by
  rw [tick_running hf]
  by_cases hst : s.st = 0
  · have hpos : ¬ 0 < s.st.toNat := by simp [hst]
    rw [if_neg hpos, if_pos hst, List.append_nil]
    rfl
  · have hpos : 0 < s.st.toNat := by bv_omega
    rw [if_pos hpos, if_neg hst]
    rfl

end Sys2Proof.Machine
end

section

open Sys2Proof Sys2Proof.Machine

/-- Settles O11: the step is the Cycle that fetches the word, and raising writes the record. -/
theorem unimplementedWordFaults : Obligations.UnimplementedWordFaults := by
  intro s w hf hc hpc hw hd
  have hcycle : cycle (s.setPending s.pending.tail) = raise .unimplementedOpcode (some w) _ :=
    cycle_of_unimplemented hf hpc hw hd
  exact ⟨_, (step_of_nextCommand_cycle hc).trans hcycle, rfl⟩

/-- Settles O34: the step is the Tick, which writes the timers and the events only. -/
theorem tickCountsTheTimersDown : Obligations.TickCountsTheTimersDown := by
  intro s q hf hq
  have htick := tick_eq_next (s := s.setPending q) hf
  exact ⟨_, (step_of_cons hq).trans htick, countDown_toNat s.dt, countDown_toNat s.st, rfl, fun _ => rfl, rfl, rfl,
    rfl, fun _ => rfl, fun _ => rfl, hf, rfl, rfl, rfl, rfl⟩

end

section
/-! Proofs about the decoder (30_encoding.md): it inverts the encoder both ways, and it agrees with the rows of the
opcode map and with the table of unimplemented families. -/

namespace Sys2Proof

/-! ## Encoding, then decoding -/

/-- A well-formed instruction is what its word decodes to: every field is read back from where the encoder put it. -/
theorem decode_encode {i : Instr} (h : i.wf = true) : decode (encode i) = some i := by
  cases i with
  | cls => rfl
  | ret => rfl
  | drw x y n =>
    simpa [decode, encode] using (of_decide_eq_true h : n < 16)
  | ldReg | orReg | andReg | xorReg | addReg | subReg | subnReg => simp [decode, decodeFamily8, encode]
  | _ => simp [decode, encode]

/-- The same of the bytes; those after the first two are left (R79). -/
theorem decodeBytes_encodeBytes {i : Instr} (h : i.wf = true) (rest : List Byte) :
    decodeBytes (encodeBytes i ++ rest) = .ok (i, rest) := by
  simp [encodeBytes, decodeBytes, wordOfBytes_bytesOfWord, decode_encode h]

/-! ## Decoding, then encoding -/

theorem encodeAddr_of_opField {w : Word} {op : BitVec 4} (h : opField w = op) : encodeAddr op (addrField w) = w :=
  h ▸ encodeAddr_fields w

theorem encodeXNn_of_opField {w : Word} {op : BitVec 4} (h : opField w = op) :
    encodeXNn op (xField w) (nnField w) = w :=
  h ▸ encodeXNn_fields w

theorem encodeXY_of_fields {w : Word} {op n : BitVec 4} (h : opField w = op) (hn : nField w = n) :
    encodeXY op (xField w) (yField w) n = w :=
  h ▸ hn ▸ encodeXY_fields w

/-- Family 0 decodes exactly two words. -/
theorem encode_of_decodeFamily0 {w : Word} {i : Instr} (h : decodeFamily0 w = some i) : i.wf = true ∧ encode i = w := by
  unfold decodeFamily0 at h
  split at h
  case isTrue hw => cases h; exact ⟨rfl, hw.symm⟩
  case isFalse =>
    split at h
    case isTrue hw => cases h; exact ⟨rfl, hw.symm⟩
    case isFalse => cases h

/-- In family 8 the low nibble and the operation determine each other. -/
theorem encode_of_decodeFamily8 {w : Word} {i : Instr} (hop : opField w = 0x8#4) (h : decodeFamily8 w = some i) :
    i.wf = true ∧ encode i = w := by
  unfold decodeFamily8 at h
  split at h <;> cases h <;> exact ⟨rfl, encodeXY_of_fields hop ‹_›⟩

/-- The instruction a word decodes to is well formed and has that word: the fields make the word again. -/
theorem encode_of_decode {w : Word} {i : Instr} (h : decode w = some i) : i.wf = true ∧ encode i = w := by
  unfold decode at h
  split at h
  case h_1 => exact encode_of_decodeFamily0 h
  case h_2 hop | h_3 hop | h_11 hop => cases h; exact ⟨rfl, encodeAddr_of_opField hop⟩
  case h_4 hop | h_5 hop | h_7 hop | h_8 hop => cases h; exact ⟨rfl, encodeXNn_of_opField hop⟩
  case h_6 hop | h_10 hop =>
    split at h
    case isTrue hn => cases h; exact ⟨rfl, encodeXY_of_fields hop hn⟩
    case isFalse => cases h
  case h_9 hop => exact encode_of_decodeFamily8 hop h
  case h_12 hop =>
    cases h
    refine ⟨decide_eq_true (nField w).isLt, ?_⟩
    rw [encode, BitVec.ofNat_toNat, BitVec.setWidth_eq]
    exact encodeXY_of_fields hop rfl
  case h_13 => cases h

/-! ## The rows of the opcode map -/

theorem row_mem_opcodeMap (i : Instr) : i.row ∈ opcodeMap := by
  cases i <;> simp [opcodeMap, Instr.row]

/-- The row of an instruction selects its word (R76). -/
theorem row_selects_encode (i : Instr) : i.row.selects (encode i) = true := by
  cases i with
  | cls => exact Laws.EncodeRow.cls
  | ret => exact Laws.EncodeRow.ret
  | jp addr => exact Laws.EncodeRow.jp addr
  | call addr => exact Laws.EncodeRow.call addr
  | seImm x nn => exact Laws.EncodeRow.seImm x nn
  | sneImm x nn => exact Laws.EncodeRow.sneImm x nn
  | seReg x y => exact Laws.EncodeRow.seReg x y
  | ldImm x nn => exact Laws.EncodeRow.ldImm x nn
  | addImm x nn => exact Laws.EncodeRow.addImm x nn
  | ldReg x y => exact Laws.EncodeRow.ldReg x y
  | orReg x y => exact Laws.EncodeRow.orReg x y
  | andReg x y => exact Laws.EncodeRow.andReg x y
  | xorReg x y => exact Laws.EncodeRow.xorReg x y
  | addReg x y => exact Laws.EncodeRow.addReg x y
  | subReg x y => exact Laws.EncodeRow.subReg x y
  | subnReg x y => exact Laws.EncodeRow.subnReg x y
  | sneReg x y => exact Laws.EncodeRow.sneReg x y
  | ldI addr => exact Laws.EncodeRow.ldI addr
  | drw x y n => exact Laws.EncodeRow.drw x y n

/-- Two rows fix some bit, which both masks keep, to different values. -/
def OpcodeRow.Disjoint (r r' : OpcodeRow) : Prop := r.bits &&& r'.mask ≠ r'.bits &&& r.mask

theorem opcodeMap_pairwise_disjoint : opcodeMap.Pairwise OpcodeRow.Disjoint := by
  unfold OpcodeRow.Disjoint
  decide

/-- Disjoint rows have no word in common: on the bits that both masks keep the word would have to agree with both. -/
theorem OpcodeRow.Disjoint.selects_false {r r' : OpcodeRow} {w : Word} (hd : r.Disjoint r') (h : r.selects w = true) :
    r'.selects w = false := by
  refine Bool.eq_false_iff.mpr fun h' => hd ?_
  rw [← of_decide_eq_true h, ← of_decide_eq_true h', BitVec.and_assoc, BitVec.and_assoc, BitVec.and_comm r.mask]

/-- No word belongs to two rows of the opcode map. -/
theorem row_eq_of_selects {r r' : OpcodeRow} {w : Word} (hr : r ∈ opcodeMap) (hr' : r' ∈ opcodeMap)
    (h : r.selects w = true) (h' : r'.selects w = true) : r = r' := by
  have hsymm : Std.Symm OpcodeRow.Disjoint := ⟨fun _ _ => Ne.symm⟩
  by_contra hne
  have hd : r.Disjoint r' := opcodeMap_pairwise_disjoint.forall hr hr' hne
  exact absurd h' (by simp [hd.selects_false h])

/-- A row that fixes the family selects words of that family only. -/
theorem opField_of_selects {w bits : Word} {p : String} (h : (OpcodeRow.mk p bits 0xF000).selects w = true) :
    opField w = opField bits := by
  have hbits : w &&& 0xF000 = bits := of_decide_eq_true h
  rw [← hbits, mask_family, opField_encodeAddr]

/-- A row that fixes the low nibble too selects words with that nibble only. -/
theorem opField_nField_of_selects {w bits : Word} {p : String}
    (h : (OpcodeRow.mk p bits 0xF00F).selects w = true) : opField w = opField bits ∧ nField w = nField bits := by
  have hbits : w &&& 0xF00F = bits := of_decide_eq_true h
  rw [← hbits, mask_family_n, opField_encodeXY, nField_encodeXY]
  exact ⟨rfl, rfl⟩

/-- A row that fixes every bit selects one word only. -/
theorem eq_bits_of_selects {w bits : Word} {p : String} (h : (OpcodeRow.mk p bits 0xFFFF).selects w = true) :
    w = bits :=
  BitVec.and_allOnes.symm.trans (of_decide_eq_true h)

/-- What a row of the opcode map selects decodes: the fields that the row fixes are those that the decoder looks at. -/
theorem isSome_decode_of_row_selects {i : Instr} {w : Word} (h : i.row.selects w = true) :
    (decode w).isSome = true := by
  cases i with
  | cls | ret => rw [eq_bits_of_selects h]; rfl
  | jp | call | seImm | sneImm | ldImm | addImm | ldI | drw => simp only [decode, opField_of_selects h]; rfl
  | _ =>
    obtain ⟨hop, hn⟩ := opField_nField_of_selects h
    simp only [decode, decodeFamily8, hop, hn]; rfl

/-- Every row of the opcode map is the row of some instruction. -/
theorem exists_row_of_mem_opcodeMap {r : OpcodeRow} (h : r ∈ opcodeMap) : ∃ i : Instr, i.row = r := by
  have hmap : opcodeMap = List.map Instr.row
      [.cls, .ret, .jp 0, .call 0, .seImm 0 0, .sneImm 0 0, .seReg 0 0, .ldImm 0 0, .addImm 0 0, .ldReg 0 0, .orReg 0 0,
       .andReg 0 0, .xorReg 0 0, .addReg 0 0, .subReg 0 0, .subnReg 0 0, .sneReg 0 0, .ldI 0, .drw 0 0 0] := rfl
  rw [hmap] at h
  obtain ⟨i, -, hi⟩ := List.mem_map.mp h
  exact ⟨i, hi⟩

/-- The row of the instruction that a word decodes to selects the word. -/
theorem row_selects_of_decode {w : Word} {i : Instr} (h : decode w = some i) : i.row.selects w = true := by
  obtain ⟨-, hw⟩ := encode_of_decode h
  exact hw ▸ row_selects_encode i

/-! ## The unimplemented space -/

/-- The words of the unimplemented families (R77). -/
def Unimplemented (w : Word) : Prop :=
  ((opField w).toNat = 0x0 ∧ ¬ (w = 0x00E0 ∨ w = 0x00EE)) ∨
  ((opField w).toNat = 0x5 ∧ (nField w).toNat ≠ 0) ∨
  ((opField w).toNat = 0x8 ∧ ((nField w).toNat = 6 ∨ 8 ≤ (nField w).toNat)) ∨
  ((opField w).toNat = 0x9 ∧ (nField w).toNat ≠ 0) ∨
  (opField w).toNat = 0xB ∨ (opField w).toNat = 0xC ∨ (opField w).toNat = 0xE ∨ (opField w).toNat = 0xF

/-- Family 0 has no instruction but CLS and RET. -/
theorem decodeFamily0_eq_none_iff (w : Word) : decodeFamily0 w = none ↔ ¬ (w = 0x00E0 ∨ w = 0x00EE) := by
  unfold decodeFamily0
  split
  case isTrue h => simp [h]
  case isFalse h =>
    split
    case isTrue h' => simp [h']
    case isFalse h' => exact iff_of_true rfl (not_or.mpr ⟨h, h'⟩)

/-- In family 8 the low nibbles 6 and 8 to F have no operation. -/
theorem decodeFamily8_eq_none_iff (w : Word) :
    decodeFamily8 w = none ↔ (nField w).toNat = 6 ∨ 8 ≤ (nField w).toNat := by
  unfold decodeFamily8
  split
  case h_8 =>
    refine iff_of_true rfl ?_
    simp only [imp_false] at *
    bv_omega
  all_goals simp [*]

/-- The decoder rejects exactly the words of the unimplemented families. -/
theorem decode_eq_none_iff (w : Word) : decode w = none ↔ Unimplemented w := by
  unfold decode Unimplemented
  split
  case h_1 hop => simp [hop, decodeFamily0_eq_none_iff]
  case h_9 hop => simp [hop, decodeFamily8_eq_none_iff]
  case h_6 hop | h_10 hop => simp [hop, ← BitVec.toNat_inj]
  case h_13 =>
    refine iff_of_true rfl ?_
    simp only [imp_false] at *
    bv_omega
  all_goals simp [*]

theorem opField_wordOfBytes (b1 b2 : Byte) : (opField (wordOfBytes b1 b2)).toNat = b1.toNat / 16 := by
  rw [opField_toNat, wordOfBytes_toNat]
  omega

theorem nField_wordOfBytes (b1 b2 : Byte) : (nField (wordOfBytes b1 b2)).toNat = b2.toNat % 16 := by
  rw [nField_toNat, wordOfBytes_toNat]
  omega

/-- Two bytes make one word only (20_memory.md R53). -/
theorem wordOfBytes_inj {b1 b2 c1 c2 : Byte} : wordOfBytes b1 b2 = wordOfBytes c1 c2 ↔ b1 = c1 ∧ b2 = c2 := by
  simp only [← BitVec.toNat_inj, wordOfBytes_toNat]
  omega

/-- Two bytes are rejected by name exactly when their word does not decode. -/
theorem decodeBytes_eq_error_iff (b1 b2 : Byte) (rest : List Byte) :
    decodeBytes (b1 :: b2 :: rest) = .error (.unimplemented (wordOfBytes b1 b2)) ↔
      decode (wordOfBytes b1 b2) = none := by
  simp only [decodeBytes]
  cases decode (wordOfBytes b1 b2) <;> simp

end Sys2Proof
end

section

open Sys2Proof

/-- Settles O2: every field of an encoded word is read back as it was written. -/
theorem decodeOfEncode : Obligations.DecodeOfEncode := fun _ h =>
  ⟨decode_encode h, decodeBytes_encodeBytes h⟩

/-- Settles O3: the fields of a decoded word make the word again. -/
theorem encodeOfDecode : Obligations.EncodeOfDecode := fun _ _ => encode_of_decode

/-- Settles O4: a word is in the row of its instruction, the rows are disjoint, and a word in a row decodes. -/
theorem decodeAgreesWithOpcodeMap : Obligations.DecodeAgreesWithOpcodeMap := by
  intro w
  refine ⟨fun i hi r hr => ⟨fun h => ?_, fun h => h ▸ row_selects_of_decode hi⟩, fun hnone r hr => ?_, fun h => ?_⟩
  · exact row_eq_of_selects hr (row_mem_opcodeMap i) h (row_selects_of_decode hi)
  · obtain ⟨i, rfl⟩ := exists_row_of_mem_opcodeMap hr
    refine Bool.eq_false_iff.mpr fun hsel => ?_
    simpa [hnone] using isSome_decode_of_row_selects hsel
  · refine Option.eq_none_iff_forall_ne_some.mpr fun i hi => ?_
    simpa [row_selects_of_decode hi] using h i.row (row_mem_opcodeMap i)

/-- Settles O5: the two bytes are rejected when their word does not decode, and its fields are theirs. -/
theorem unimplementedWords : Obligations.UnimplementedWords := by
  intro b1 b2 rest
  refine ⟨?_, rfl, rfl⟩
  have hcls : wordOfBytes b1 b2 = 0x00E0 ↔ b1 = 0x00 ∧ b2 = 0xE0 := wordOfBytes_inj (c1 := 0x00) (c2 := 0xE0)
  have hret : wordOfBytes b1 b2 = 0x00EE ↔ b1 = 0x00 ∧ b2 = 0xEE := wordOfBytes_inj (c1 := 0x00) (c2 := 0xEE)
  rw [decodeBytes_eq_error_iff, decode_eq_none_iff, Unimplemented, opField_wordOfBytes, nField_wordOfBytes, hcls, hret,
    ← and_or_left]

/-- Settles O1: each of the words is the encoding of its instruction. -/
theorem wordsOfTheOpcodeMapDecode : Obligations.WordsOfTheOpcodeMapDecode := by
  intro rest
  have h (i : Instr) (hi : i.wf = true) := decodeBytes_encodeBytes hi rest
  exact ⟨⟨h .cls rfl, h .ret rfl, h (.jp 0x234) rfl, h (.call 0xABC) rfl, h (.seImm 4 0x56) rfl,
      h (.sneImm 14 0xFD) rfl, h (.seReg 1 2) rfl, h (.ldImm 10 0x3C) rfl, h (.addImm 15 1) rfl⟩,
    h (.ldReg 1 2) rfl, h (.orReg 1 2) rfl, h (.andReg 1 2) rfl, h (.xorReg 1 2) rfl, h (.addReg 1 2) rfl,
    h (.subReg 1 2) rfl, h (.subnReg 1 2) rfl, h (.sneReg 1 2) rfl, h (.ldI 0x050) rfl, h (.drw 1 2 15) rfl⟩

end

section
/-! Proofs about what one instruction can do: the outcome of `exec`, said once, and what follows from it: which
instruction writes which piece of state, which conditions a Cycle raises, and the invariant. -/

namespace Sys2Proof.Machine

/-! ## What the other instructions answer -/

theorem exec_seReg (x y : Reg) (s : State) :
    exec (.seReg x y) s = .next (s.setPc (s.pc + if s.reg x = s.reg y then 4 else 2)) := by
  simp only [exec, execSeReg, State.skipIf_eq_setPc, beq_iff_eq]

theorem exec_sneReg (x y : Reg) (s : State) :
    exec (.sneReg x y) s = .next (s.setPc (s.pc + if s.reg x ≠ s.reg y then 4 else 2)) := by
  simp only [exec, execSneReg, State.skipIf_eq_setPc, bne_iff_ne]

/-- CALL at STACK_LIMIT raises STACK_OVERFLOW (60_exceptions.md R165). -/
theorem exec_call_of_limit {s : State} (addr : Addr) (h : s.params.stackLimit = some s.stack.length) :
    exec (.call addr) s = raise .stackOverflow (some (encode (.call addr))) s := by
  simp only [exec, execCall, if_pos h]

/-- CALL below STACK_LIMIT pushes the address after it and jumps (40_control_flow.md R102). -/
theorem exec_call_of_room {s : State} (addr : Addr) (h : s.params.stackLimit ≠ some s.stack.length) :
    exec (.call addr) s = .next ((s.push (s.pc + 2)).setPc (zext16 addr)) := by
  simp only [exec, execCall, if_neg h]
  rfl

theorem exec_addReg (x y : Reg) (s : State) :
    exec (.addReg x y) s = .next (s.advance.setRegFlag x (addWithCarry (s.reg x) (s.reg y))) := rfl

theorem exec_subReg (x y : Reg) (s : State) :
    exec (.subReg x y) s = .next (s.advance.setRegFlag x (subWithFlag (s.reg x) (s.reg y))) := rfl

theorem exec_subnReg (x y : Reg) (s : State) :
    exec (.subnReg x y) s = .next (s.advance.setRegFlag x (subWithFlag (s.reg y) (s.reg x))) := rfl

theorem exec_cls (s : State) : exec .cls s = .next (s.advance.setDisp Display.clear) := rfl

/-- The `n` sprite bytes from I on. -/
def spriteRows (s : State) (n : Nat) : List Byte := (List.range' s.i.toNat n).map s.mem.byte

/-- The display and the collision flag after drawing an n-row sprite at the position in V[x] and V[y]. -/
def drawnOnto (s : State) (x y : Reg) (n : Nat) : Display × Bool :=
  drawRows s.disp (startColumn (s.reg x)) (startRow (s.reg y)) (spriteRows s n)

/-- The state after a DRW that draws: the flag is written after the display, and the event carries that display
(42_display.md R141). -/
def afterDrw (s : State) (x y : Reg) (n : Nat) : State :=
  ((s.advance.setDisp (drawnOnto s x y n).1).setReg vf (flagByte (drawnOnto s x y n).2)).emit
    (.draw (drawnOnto s x y n).1)

/-- DRW whose rows pass 0xFFF raises SPRITE_READ_OUT_OF_RANGE (42_display.md R142). -/
theorem exec_drw_of_past_top {s : State} (x y : Reg) {n : Nat} (h : 0 < n ∧ 0xFFF < s.i.toNat + n - 1) :
    exec (.drw x y n) s = raise .spriteReadOutOfRange (some (encode (.drw x y n))) s := by
  simp only [exec, execDrw, Memory.readBytes_eq, if_pos h]

/-- DRW whose rows all exist draws them, sets the flag and emits one event (42_display.md R141). -/
theorem exec_drw_of_rows {s : State} (x y : Reg) {n : Nat} (h : ¬ (0 < n ∧ 0xFFF < s.i.toNat + n - 1)) :
    exec (.drw x y n) s = .next (afterDrw s x y n) := by
  simp only [exec, execDrw, Memory.readBytes_eq, if_neg h]
  rfl

/-! ## The outcome of an instruction -/

/-- The condition that an instruction raises, if any (60_exceptions.md R168). -/
def faultOfInstr (i : Instr) (s : State) : Option FaultCode :=
  match i with
  | .ret => if s.stack = [] then some .stackUnderflow else none
  | .call _ => if s.params.stackLimit = some s.stack.length then some .stackOverflow else none
  | .drw _ _ n => if 0 < n ∧ 0xFFF < s.i.toNat + n - 1 then some .spriteReadOutOfRange else none
  | _ => none

/-- What an instruction that completes makes of a state: one of eight updates. -/
inductive Completes (s : State) : Instr → State → Prop
  | jump {i : Instr} {w : Word} (hw : w = s.pc + 2 ∨ w = s.pc + 4 ∨ ∃ addr, w = zext16 addr) :
    Completes s i (s.setPc w)
  | ret {l : List Word} {w : Word} (hl : s.stack = l ++ [w]) : Completes s .ret ((s.setStack l).setPc w)
  | call {addr : Addr} (hroom : s.params.stackLimit ≠ some s.stack.length) :
    Completes s (.call addr) ((s.push (s.pc + 2)).setPc (zext16 addr))
  | reg {i : Instr} {x : Reg} (b : Byte) (hx : destReg i = some x) : Completes s i (s.advance.setReg x b)
  | regFlag {i : Instr} {x : Reg} (r : Byte × Bool) (hx : destReg i = some x) (hflag : setsFlag i = true) :
    Completes s i (s.advance.setRegFlag x r)
  | index {addr : Addr} : Completes s (.ldI addr) (s.advance.setIndex (zext16 addr))
  | cls : Completes s .cls (s.advance.setDisp Display.clear)
  | drw {x y : Reg} {n : Nat} : Completes s (.drw x y n) (afterDrw s x y n)

/-- A skip advances by 4 or by 2. -/
theorem completes_skip (s : State) (i : Instr) (p : Prop) [Decidable p] :
    Completes s i (s.setPc (s.pc + if p then 4 else 2)) := by
  by_cases hp : p
  · exact .jump (.inr (.inl (by rw [if_pos hp])))
  · exact .jump (.inl (by rw [if_neg hp]))

/-- Every instruction answers a next state: it raises its condition, with its own word, or it completes. -/
theorem exec_outcome (i : Instr) (s : State) :
    (∃ code, faultOfInstr i s = some code ∧ code ≠ .fetchOutOfRange ∧ exec i s = raise code (some (encode i)) s) ∨
      (faultOfInstr i s = none ∧ ∃ t, exec i s = .next t ∧ Completes s i t) := by
  cases i with
  | ret =>
    rcases List.eq_nil_or_concat' s.stack with h | ⟨l, w, h⟩
    · exact .inl ⟨.stackUnderflow, if_pos h, nofun, exec_ret_of_nil h⟩
    · exact .inr ⟨if_neg (by simp [h]), _, exec_ret_of_append h, .ret h⟩
  | call addr =>
    by_cases h : s.params.stackLimit = some s.stack.length
    · exact .inl ⟨.stackOverflow, if_pos h, nofun, exec_call_of_limit addr h⟩
    · exact .inr ⟨if_neg h, _, exec_call_of_room addr h, .call h⟩
  | drw x y n =>
    by_cases h : 0 < n ∧ 0xFFF < s.i.toNat + n - 1
    · exact .inl ⟨.spriteReadOutOfRange, if_pos h, nofun, exec_drw_of_past_top x y h⟩
    · exact .inr ⟨if_neg h, _, exec_drw_of_rows x y h, .drw⟩
  | cls => exact .inr ⟨rfl, _, exec_cls s, .cls⟩
  | jp addr => exact .inr ⟨rfl, _, exec_jp addr s, .jump (.inr (.inr ⟨addr, rfl⟩))⟩
  | seImm x nn => exact .inr ⟨rfl, _, exec_seImm x nn s, completes_skip s _ _⟩
  | sneImm x nn => exact .inr ⟨rfl, _, exec_sneImm x nn s, completes_skip s _ _⟩
  | seReg x y => exact .inr ⟨rfl, _, exec_seReg x y s, completes_skip s _ _⟩
  | sneReg x y => exact .inr ⟨rfl, _, exec_sneReg x y s, completes_skip s _ _⟩
  | ldI addr => exact .inr ⟨rfl, _, exec_ldI addr s, .index⟩
  | addReg | subReg | subnReg => exact .inr ⟨rfl, _, rfl, .regFlag _ rfl rfl⟩
  | ldImm | addImm | ldReg | orReg | andReg | xorReg => exact .inr ⟨rfl, _, rfl, .reg _ rfl⟩

/-- The state an instruction answers: the fault record is all that is set, or the instruction completes. -/
theorem exec_next {i : Instr} {s t : State} (h : exec i s = .next t) :
    (∃ code, code ≠ .fetchOutOfRange ∧ t = s.setFault (some ⟨code, s.pc, some (encode i)⟩)) ∨ Completes s i t := by
  rcases exec_outcome i s with ⟨code, -, hcode, hr⟩ | ⟨-, u, hu, hc⟩
  · exact .inl ⟨code, hcode, raise_eq_next (hr.symm.trans h)⟩
  · cases hu.symm.trans h
    exact .inr hc

/-! ## What an instruction writes -/

theorem Completes.fault_eq {s t : State} {i : Instr} (h : Completes s i t) : t.fault = s.fault := by
  cases h <;> rfl

/-- A register that changes is the destination, or VF where the flag is set (10_state.md R22, R33). -/
theorem Completes.reg_writer {s t : State} {i : Instr} (h : Completes s i t) {z : Reg} (hz : t.reg z ≠ s.reg z) :
    destReg i = some z ∨ (setsFlag i = true ∧ z = 15) := by
  cases h with
  | @reg i x b hx =>
    by_cases hzx : z = x
    · exact .inl (hzx ▸ hx)
    · exact absurd (State.setReg_reg_of_ne s.advance b hzx) hz
  | @regFlag i x r hx hflag =>
    by_cases hv : z = vf
    · exact .inr ⟨hflag, hv⟩
    · rw [State.setRegFlag_reg, if_neg hv] at hz
      by_cases hzx : z = x
      · exact .inl (hzx ▸ hx)
      · exact absurd (if_neg hzx) hz
  | drw =>
    by_cases hv : z = vf
    · exact .inr ⟨rfl, hv⟩
    · exact absurd (State.setReg_reg_of_ne (s.advance.setDisp _) _ hv) hz
  | _ => exact absurd rfl hz

end Sys2Proof.Machine
end

section

open Sys2Proof Sys2Proof.Machine

/-- Settles O41: a raised condition leaves the registers, and an instruction that completes writes those named. -/
theorem onlyNamedInstructionsWriteRegisters : Obligations.OnlyNamedInstructionsWriteRegisters := by
  intro i s t z h hz
  rcases exec_next h with ⟨code, -, rfl⟩ | hc
  · exact absurd rfl hz
  · exact hc.reg_writer hz

/-- Settles O42, by the eight updates: each writes one of these pieces of state at most, DRW display and events. -/
theorem onlyNamedInstructionsWriteTheRest : Obligations.OnlyNamedInstructionsWriteTheRest := by
  intro i s t h
  rcases exec_next h with ⟨code, -, rfl⟩ | hc
  · exact ⟨absurd rfl, absurd rfl, absurd rfl, absurd rfl⟩
  · cases hc with
    | ret => exact ⟨absurd rfl, fun _ => .inl rfl, absurd rfl, absurd rfl⟩
    | call => exact ⟨absurd rfl, fun _ => .inr ⟨_, rfl⟩, absurd rfl, absurd rfl⟩
    | index => exact ⟨fun _ => ⟨_, rfl⟩, absurd rfl, absurd rfl, absurd rfl⟩
    | cls => exact ⟨absurd rfl, absurd rfl, fun _ => .inl rfl, absurd rfl⟩
    | drw => exact ⟨absurd rfl, absurd rfl, fun _ => .inr ⟨_, _, _, rfl⟩, fun _ => ⟨⟨_, _, _, rfl⟩, rfl⟩⟩
    | _ => exact ⟨absurd rfl, absurd rfl, absurd rfl, absurd rfl⟩

end

section
/-! Proofs about the Cycle and the whole machine: when a Cycle faults, and what every step keeps. -/

namespace Sys2Proof.Machine

/-! ## The Cycle -/

/-- A running block whose PC is past the last word raises FETCH_OUT_OF_RANGE (60_exceptions.md R163). -/
theorem cycle_of_past_top {s : State} (hf : s.fault = none) (hpc : 0xFFE < s.pc.toNat) :
    cycle s = raise .fetchOutOfRange none s := by
  have hfetch : fetchWord s = none := by rw [fetchWord_eq, if_neg (Nat.not_le.mpr hpc)]
  simp only [cycle, hf, hfetch]

/-- A running block runs the instruction that its fetched word decodes to (30_encoding.md R82). -/
theorem cycle_of_decode {s : State} {i : Instr} (hf : s.fault = none) (hpc : s.pc.toNat ≤ 0xFFE)
    (hd : decode (wordOfBytes (s.mem.byte s.pc.toNat) (s.mem.byte (s.pc.toNat + 1))) = some i) :
    cycle s = exec i s := by
  simp only [cycle, hf, fetchWord_eq, if_pos hpc, hd]

/-- A decoded instruction's own condition is the Cycle's. -/
theorem faultOfCycle_of_decode {s : State} {i : Instr} (hpc : s.pc.toNat ≤ 0xFFE)
    (hd : decode (wordOfBytes (s.mem.byte s.pc.toNat) (s.mem.byte (s.pc.toNat + 1))) = some i) :
    faultOfCycle s = faultOfInstr i s := by
  simp only [faultOfCycle, if_neg (Nat.not_lt.mpr hpc), hd]
  cases i <;> rfl

/-- The state that a Cycle answers: it records one condition, with the fetched word unless the fetch itself failed, or
it completes an instruction at a PC up to 0xFFE. -/
theorem cycle_next {s t : State} (h : cycle s = .next t) :
    (∃ code word, (word = none ↔ code = .fetchOutOfRange) ∧ t = s.setFault (some ⟨code, s.pc, word⟩)) ∨
      (s.pc.toNat ≤ 0xFFE ∧ ∃ i, Completes s i t) := by
  rcases cycle_cases (cycle_next_running h) with ⟨-, hc⟩ | ⟨hpc, w, -, ⟨-, hc⟩ | ⟨i, -, hc⟩⟩
  · exact .inl ⟨.fetchOutOfRange, none, by simp, raise_eq_next (hc.symm.trans h)⟩
  · exact .inl ⟨.unimplementedOpcode, some w, by simp, raise_eq_next (hc.symm.trans h)⟩
  · rcases exec_next (hc.symm.trans h) with ⟨code, hcode, rfl⟩ | hi
    · exact .inl ⟨code, some (encode i), by simp [hcode], rfl⟩
    · exact .inr ⟨hpc, i, hi⟩

/-! ## What the invariant allows to change -/

variable {s t : State}

theorem State.Inv.setPending (h : s.Inv) (q : List Command) : (s.setPending q).Inv := { h with }

theorem State.Inv.setTExec (h : s.Inv) (now : Time) : (s.setTExec now).Inv := { h with }

theorem State.Inv.setTTimer (h : s.Inv) (now : Time) : (s.setTTimer now).Inv := { h with }

theorem State.Inv.setReg (h : s.Inv) (x : Reg) (b : Byte) : (s.setReg x b).Inv := { h with }

theorem State.Inv.setDisp (h : s.Inv) {d : Display} (hd : d.wf) : (s.setDisp d).Inv := { h with disp_wf := hd }

theorem State.Inv.emit_draw (h : s.Inv) {d : Display} (hd : d.wf) : (s.emit (.draw d)).Inv :=
  { h with
    events_wf := fun d' hd' => by
      rcases List.mem_append.mp hd' with hold | hnew
      · exact h.events_wf d' hold
      · cases List.mem_singleton.mp hnew
        exact hd }

/-- The PC may move while there is no fault record, which would name it. -/
theorem State.Inv.setPc (h : s.Inv) (hf : s.fault = none) {w : Word} (hw : w.toNat ≤ 0x1002) : (s.setPc w).Inv :=
  { h with pc_le := hw, fault_pc := fun _ hr => nomatch hf.symm.trans hr }

/-- A record that names the present PC may be set. -/
theorem State.Inv.setFault (h : s.Inv) {code : FaultCode} {word : Option Word}
    (hw : word = none ↔ code = .fetchOutOfRange) : (s.setFault (some ⟨code, s.pc, word⟩)).Inv :=
  { h with
    fault_pc := fun _ hr => by cases hr; rfl
    fault_word := fun _ hr => by cases hr; exact hw }

/-! ## What keeps the invariant -/

/-- PC + 2 and PC + 4 stay within 0x1002 from every PC that a Cycle can fetch at (10_state.md R25). -/
theorem toNat_add_le_of_fetchable {pc : Word} (hpc : pc.toNat ≤ 0xFFE) :
    (pc + 2).toNat ≤ 0x1000 ∧ (pc + 4).toNat ≤ 0x1002 := by
  constructor <;> bv_omega

theorem zext16_le (addr : Addr) : (zext16 addr).toNat ≤ 0xFFF := by
  rw [zext16_toNat]
  exact Nat.le_of_lt_succ addr.isLt

/-- An instruction that completes keeps the invariant, by its eight updates. -/
theorem Completes.inv {i : Instr} (hc : Completes s i t) (h : s.Inv) (hf : s.fault = none)
    (hpc : s.pc.toNat ≤ 0xFFE) : t.Inv := by
  obtain ⟨hpc2, hpc4⟩ := toNat_add_le_of_fetchable hpc
  have hadv : s.advance.Inv := h.setPc hf (by omega)
  cases hc with
  | jump hw =>
    refine h.setPc hf ?_
    rcases hw with rfl | rfl | ⟨addr, rfl⟩
    · omega
    · exact hpc4
    · exact (zext16_le addr).trans (by omega)
  | @ret l w hl =>
    have hstack : ∀ w' ∈ l ++ [w], w'.toNat ≤ 0x1000 := hl ▸ h.stack_le
    have hpop : (s.setStack l).Inv :=
      { h with
        stack_le := fun w' hw' => hstack w' (List.mem_append_left _ hw')
        depth_le := fun k hk => by
          have hdepth := h.depth_le k hk
          rw [hl, List.length_append] at hdepth
          exact (Nat.le_add_right _ _).trans hdepth }
    exact hpop.setPc hf ((hstack w (by simp)).trans (by omega))
  | @call addr hroom =>
    have hpush : (s.push (s.pc + 2)).Inv :=
      { h with
        stack_le := fun w hw => by
          rcases List.mem_append.mp hw with hold | hnew
          · exact h.stack_le w hold
          · cases List.mem_singleton.mp hnew
            exact hpc2
        depth_le := fun k hk => by
          have hne : k ≠ s.stack.length := fun hk' => hroom (hk' ▸ hk)
          have hdepth := h.depth_le k hk
          rw [State.push_stack, List.length_append, List.length_singleton]
          omega }
    exact hpush.setPc hf ((zext16_le addr).trans (by omega))
  | reg b => exact hadv.setReg _ b
  | regFlag r => exact (hadv.setReg _ r.1).setReg _ _
  | @index addr => exact { hadv with index_le := zext16_le addr }
  | cls => exact hadv.setDisp Display.clear_wf
  | @drw x y n =>
    have hdrawn : (drawnOnto s x y n).1.wf := drawRows_wf _ _ _ h.disp_wf
    exact ((hadv.setDisp hdrawn).setReg _ _).emit_draw hdrawn

theorem State.Inv.cycle (h : s.Inv) (hc : cycle s = .next t) : t.Inv := by
  rcases cycle_next hc with ⟨code, word, hw, rfl⟩ | ⟨hpc, i, hi⟩
  · exact h.setFault hw
  · exact hi.inv h (cycle_next_running hc) hpc

/-- A Tick writes the timers and emits no Draw event. -/
theorem State.Inv.tick (h : s.Inv) (ht : tick s = .next t) : t.Inv := by
  obtain ⟨-, rfl⟩ := tick_next ht
  exact
    { h with
      events_wf := fun d hd => by
        rcases List.mem_append.mp hd with hold | hnew
        · exact h.events_wf d hold
        · split at hnew <;> simp at hnew }

theorem State.Inv.updateTimer (h : s.Inv) {now : Time} (hu : updateTimer now s = .next t) : t.Inv := by
  rcases updateTimer_next hu with ⟨-, u, ht, rfl⟩ | ⟨-, rfl⟩
  · exact (h.tick ht).setTTimer now
  · exact h

theorem State.Inv.update (h : s.Inv) {now : Time} (hu : update now s = .next t) : t.Inv := by
  rcases update_next hu with ⟨-, u, hc, ⟨-, rfl⟩ | ⟨-, ht⟩⟩ | ⟨-, ht⟩
  · exact h.cycle hc
  · exact ((h.cycle hc).setTExec now).updateTimer ht
  · exact h.updateTimer ht

theorem reset_inv : State.reset.Inv :=
  { mem_wf := reset_mem_wf
    disp_wf := Display.clear_wf
    index_le := by decide
    pc_le := by decide
    stack_le := nofun
    depth_le := nofun
    fault_pc := nofun
    fault_word := nofun
    events_wf := nofun }

/-- Construct answers the reset state but for memory, times and parameters, and its stack is empty. -/
theorem construct_inv {p : Config.Params} {program : List Byte} {font : Option (List Byte)} {now : Time}
    (h : construct p program font now = .ok t) : t.Inv := by
  obtain ⟨-, -, rfl⟩ := construct_ok h
  exact { reset_inv with mem_wf := loadMemory_wf program font, depth_le := fun k _ => Nat.zero_le k }

end Sys2Proof.Machine
end

section

open Sys2Proof Sys2Proof.Machine

/-- Settles O46: Construct establishes the invariant, and the Cycle, the Tick and the Update keep it. -/
theorem everyStepKeepsTheInvariant : Obligations.EveryStepKeepsTheInvariant := by
  intro s t h hstep
  have hq : (s.setPending s.pending.tail).Inv := h.setPending _
  rcases step_next hstep with ⟨_, _, _, u, -, hk, rfl⟩ | ⟨-, hc⟩ | ⟨-, ht⟩ | ⟨now, -, hu⟩ | ⟨-, rfl⟩
  · exact (construct_inv hk).setPending _
  · exact hq.cycle hc
  · exact hq.tick ht
  · exact hq.update hu
  · exact hq

/-- Settles O45: the stores are empty, the registers are in their bounds and there is no record. -/
theorem invariantHoldsAtReset : Obligations.InvariantHoldsAtReset := reset_inv

end

section

open Sys2Proof Sys2Proof.Machine

/-- Settles O12: a Cycle that raises a condition writes the record alone, and an instruction that completes leaves no
record; the word an instruction records is the fetched one, because decoding inverts encoding. -/
theorem cycleFaultsExactlyWhenSpecified : Obligations.CycleFaultsExactlyWhenSpecified := by
  intro s hf
  rcases cycle_cases hf with ⟨hpc, hc⟩ | ⟨hpc, w, rfl, ⟨hd, hc⟩ | ⟨i, hd, hc⟩⟩
  · have hcode : faultOfCycle s = some .fetchOutOfRange := if_pos hpc
    exact ⟨_, hc, hcode.symm, fun code h => by cases hcode.symm.trans h; rfl⟩
  · have hcode : faultOfCycle s = some .unimplementedOpcode := by
      simp only [faultOfCycle, if_neg (Nat.not_lt.mpr hpc), hd]
    exact ⟨_, hc, hcode.symm, fun code h => by cases hcode.symm.trans h; rfl⟩
  · rw [faultOfCycle_of_decode hpc hd, hc]
    obtain ⟨-, hword⟩ := encode_of_decode hd
    rcases exec_outcome i s with ⟨code, hcode, hne, hr⟩ | ⟨hnone, t, ht, hcomp⟩
    · refine ⟨_, hr, hcode.symm, fun code' h => ?_⟩
      cases hcode.symm.trans h
      rw [if_neg hne, hword]
    · exact ⟨t, ht, by rw [hcomp.fault_eq, hf, hnone]; rfl, fun code h => by cases hnone.symm.trans h⟩

/-- Settles O9: the step is the Cycle, which reads the same bytes with the command still listed or taken. -/
theorem stepRunsTheDecodedInstruction : Obligations.StepRunsTheDecodedInstruction := by
  intro s i hf hpc hd
  constructor
  · exact fun hq => (step_of_nil hq).trans (cycle_of_decode hf hpc hd)
  · exact fun q hq => (step_of_cons hq).trans (cycle_of_decode (s := s.setPending q) hf hpc hd)

/-- Settles O10: the step is the Cycle, and raising writes the record alone. -/
theorem fetchPastTheTopFaults : Obligations.FetchPastTheTopFaults := by
  intro s hf hpc
  constructor
  · exact fun hq => (step_of_nil hq).trans (cycle_of_past_top hf hpc)
  · exact fun q hq => (step_of_cons hq).trans (cycle_of_past_top (s := s.setPending q) hf hpc)

/-- Settles O13: the step is the Cycle or the Tick, and neither looks further than the record. -/
theorem stoppedBlockAcceptsNoCycleAndNoTick : Obligations.StoppedBlockAcceptsNoCycleAndNoTick := by
  intro s r hf
  refine ⟨fun hq => ?_, fun q hq => ?_, fun q hq => ?_⟩
  · exact (step_of_nil hq).trans (cycle_stopped hf)
  · exact (step_of_cons hq).trans (cycle_stopped (s := s.setPending q) hf)
  · exact (step_of_cons hq).trans (tick_stopped (s := s.setPending q) hf)

/-- Settles O14: the numbering gives each of them. -/
theorem faultCodesAreNumbered : Obligations.FaultCodesAreNumbered :=
  ⟨rfl, rfl, rfl, rfl, rfl, fun _ => rfl, fun _ => rfl⟩

/-- Settles O21: the decoded jump writes the PC with the value it has. -/
theorem parkedStateRepeats : Obligations.ParkedStateRepeats := by
  intro s addr hf hpc hd haddr
  have hjump : zext16 addr = s.pc := BitVec.eq_of_toNat_eq (by rw [zext16_toNat, haddr])
  obtain ⟨hnil, hcons⟩ := stepRunsTheDecodedInstruction s _ hf hpc hd
  constructor
  · intro hq
    rw [hnil hq, exec_jp, hjump]
    rfl
  · intro q hq
    rw [hcons q hq, exec_jp, hjump]
    rfl

end

section
/-! Proofs about Update and about what only Construct changes (60_exceptions.md R177, R160). -/

namespace Sys2Proof.Machine

/-! ## What Update answers -/

variable {now : Time} {s t u : State}

theorem updateTimer_of_not_due (h : now - s.tTimer ≤ s.params.timerPeriod) : updateTimer now s = .next s :=
  if_neg (not_lt.mpr h)

theorem updateTimer_of_due (h : s.params.timerPeriod < now - s.tTimer) (ht : tick s = .next u) :
    updateTimer now s = .next (u.setTTimer now) := by
  simp only [updateTimer, if_pos h, ht]

/-- With no Cycle due an Update is its timer part. -/
theorem update_of_exec_not_due (h : now - s.tExec ≤ s.params.execPeriod) : update now s = updateTimer now s :=
  if_neg (not_lt.mpr h)

/-- A Cycle that is due ends the Update by a fault, and else the timer part follows it (log 13). -/
theorem update_of_exec_due (h : s.params.execPeriod < now - s.tExec) (hc : cycle s = .next t) :
    update now s = if t.fault.isSome then .next t else updateTimer now (t.setTExec now) := by
  simp only [update, if_pos h, hc]

theorem update_of_not_due (hE : now - s.tExec ≤ s.params.execPeriod) (hT : now - s.tTimer ≤ s.params.timerPeriod) :
    update now s = .next s :=
  (update_of_exec_not_due hE).trans (updateTimer_of_not_due hT)

/-! ## What Update leaves -/

/-- The timer part sets t_timer when it runs, and keeps t_exec, the periods and memory. -/
theorem updateTimer_keeps (h : updateTimer now s = .next t) :
    t.mem = s.mem ∧ t.params = s.params ∧ t.tExec = s.tExec ∧
      t.tTimer = if s.params.timerPeriod < now - s.tTimer then now else s.tTimer := by
  rcases updateTimer_next h with ⟨hd, u, ht, rfl⟩ | ⟨hd, rfl⟩
  · obtain ⟨-, rfl⟩ := tick_next ht
    exact ⟨rfl, rfl, rfl, (if_pos hd).symm⟩
  · exact ⟨rfl, rfl, rfl, (if_neg (not_lt.mpr hd)).symm⟩

theorem update_mem (h : update now s = .next t) : t.mem = s.mem := by
  rcases update_next h with ⟨-, u, hc, hu⟩ | ⟨-, ht⟩
  · obtain ⟨-, -, hmem, -⟩ := cycle_keeps hc
    rcases hu with ⟨-, rfl⟩ | ⟨-, ht⟩
    · exact hmem
    · exact (updateTimer_keeps ht).1.trans hmem
  · exact (updateTimer_keeps ht).1

/-- An Update that ends without a fault sets the time of each part that it ran, and no other. -/
theorem update_times (h : update now s = .next t) (hf : t.fault = none) :
    t.params = s.params ∧ t.tExec = (if s.params.execPeriod < now - s.tExec then now else s.tExec) ∧
      t.tTimer = (if s.params.timerPeriod < now - s.tTimer then now else s.tTimer) := by
  rcases update_next h with ⟨hd, u, hc, ⟨hfault, rfl⟩ | ⟨-, ht⟩⟩ | ⟨hd, ht⟩
  · exact absurd hf hfault
  · obtain ⟨-, -, -, -, htimer, hparams, -⟩ := cycle_keeps hc
    obtain ⟨-, hp, hE, hT⟩ := updateTimer_keeps ht
    rw [State.setTExec_params, State.setTExec_tTimer, htimer, hparams] at hT
    exact ⟨hp.trans hparams, hE.trans (if_pos hd).symm, hT⟩
  · obtain ⟨-, hp, hE, hT⟩ := updateTimer_keeps ht
    exact ⟨hp, hE.trans (if_neg (not_lt.mpr hd)).symm, hT⟩

end Sys2Proof.Machine
end

section

open Sys2Proof Sys2Proof.Machine

/-- Settles O38, clause by clause from what Update answers; a Cycle keeps t_timer and the periods. -/
theorem updateRunsAtMostOneOfEach : Obligations.UpdateRunsAtMostOneOfEach := by
  intro s now
  refine ⟨fun q hq => step_of_cons hq, update_of_not_due, fun r hr hd => ?stopped, fun hf hE hT => ?timer,
    fun hE t hc => ?cycle⟩
  case stopped => rw [update_stopped now hr, if_pos hd]
  case timer =>
    have ht := tick_running hf
    exact ⟨_, ht, (update_of_exec_not_due hE).trans (updateTimer_of_due hT ht)⟩
  case cycle =>
    have hupdate := update_of_exec_due hE hc
    obtain ⟨-, -, -, -, htimer, hparams, -⟩ := cycle_keeps hc
    refine ⟨fun hf => ?_, fun hf hT => ?_, fun hf hT => ?_⟩
    · rw [hupdate, if_pos (Option.isSome_iff_ne_none.mpr hf)]
    · rw [hupdate, if_neg (by simp [hf])]
      exact updateTimer_of_not_due (by simpa [htimer, hparams] using hT)
    · rw [hupdate, if_neg (by simp [hf])]
      have ht := tick_running (s := t.setTExec now) hf
      exact ⟨_, ht, updateTimer_of_due (by simpa [htimer, hparams] using hT) ht⟩

/-- Settles O39: the first Update leaves the times that the hypotheses speak of, so that nothing is due. -/
theorem updateAgainTooSoonDoesNothing : Obligations.UpdateAgainTooSoonDoesNothing := by
  intro s t now now' h hf hE hT
  obtain ⟨hparams, hexec, htimer⟩ := update_times h hf
  exact update_of_not_due (by rwa [hexec, hparams]) (by rwa [htimer, hparams])

/-- Settles O43: the Cycle, the Tick and the Update keep memory, and a read keeps everything. -/
theorem onlyConstructWritesMemory : Obligations.OnlyConstructWritesMemory := by
  intro s t h hne a
  have hmem : t.mem = s.mem := by
    rcases step_next h with ⟨program, font, now, _, hc, -⟩ | ⟨-, hc⟩ | ⟨-, ht⟩ | ⟨now, -, hu⟩ | ⟨-, rfl⟩
    · exact absurd hc (hne program font now)
    · obtain ⟨-, -, hmem, -⟩ := cycle_keeps hc
      exact hmem
    · obtain ⟨-, rfl⟩ := tick_next ht
      rfl
    · exact (update_mem hu).trans rfl
    · rfl
  rw [hmem]

/-- Settles O47: a stopped block accepts no Cycle and no Tick, and the Update and the reads that it accepts do
nothing. -/
theorem onlyConstructClearsTheFaultRecord : Obligations.OnlyConstructClearsTheFaultRecord := by
  intro s t r hr h hne
  have hq : (s.setPending s.pending.tail).fault = some r := hr
  rcases step_next h with ⟨program, font, now, _, hc, -⟩ | ⟨-, hc⟩ | ⟨-, ht⟩ | ⟨now, -, hu⟩ | ⟨-, rfl⟩
  · exact absurd hc (hne program font now)
  · cases (cycle_stopped hq).symm.trans hc
  · cases (tick_stopped hq).symm.trans ht
  · rw [update_stopped now hq] at hu
    split at hu <;> cases hu
    exact hr
  · exact hr

/-- Settles O35, by induction on the number of Ticks: the first beeps while ST is nonzero and counts it down. -/
theorem ticksBeepAsOftenAsTheSoundTimerSays : Obligations.TicksBeepAsOftenAsTheSoundTimerSays := by
  intro k
  induction k with
  | zero => exact fun s q hf hq => ⟨s, rfl, rfl, rfl, by simp, rfl, hf, hq⟩
  | succ k ih =>
    intro s q hf hq
    obtain ⟨t, hstep, hdt, hst, hev, -, -, hpc, -, -, -, hft, -, -, -, hpend⟩ := tickCountsTheTimersDown s _ hf hq
    obtain ⟨u, hrun, hdt', hst', hev', hpc', hfu, hq'⟩ := ih t q hft hpend
    refine ⟨u, (Laws.core_run_of_next hstep).trans hrun, by omega, by omega, ?_, hpc'.trans hpc, hfu, hq'⟩
    rw [hev', hev, hst, List.append_assoc]
    by_cases h0 : s.st = 0
    · simp [h0]
    · have hpos : 0 < s.st.toNat := by bv_omega
      rw [if_neg h0, show min (k + 1) s.st.toNat = min k (s.st.toNat - 1) + 1 by omega, List.replicate_succ]
      rfl

end

section
/-! Proofs about calls, register skips and the instructions with a flag (40_control_flow.md, 41_register_alu.md). -/

namespace Sys2Proof.Machine

theorem State.setRegFlag_reg_vf (s : State) (x : Reg) (r : Byte × Bool) : (s.setRegFlag x r).reg 15 = flagByte r.2 :=
  (s.setRegFlag_reg x 15 r).trans (if_pos rfl)

theorem State.setRegFlag_reg_of_ne (s : State) {x z : Reg} (r : Byte × Bool) (hz : z ≠ 15) :
    (s.setRegFlag x r).reg z = if z = x then r.1 else s.reg z :=
  (s.setRegFlag_reg x z r).trans (if_neg hz)

/-- Writing a result and its flag after the advance keeps all but those two registers and the PC. -/
theorem keepsRest_advance_setRegFlag (s : State) (x : Reg) (r : Byte × Bool) :
    KeepsRest [x, 15] s (s.advance.setRegFlag x r) :=
  { reg := fun z hz => by
      simp only [List.mem_cons, List.not_mem_nil, or_false, not_or] at hz
      obtain ⟨hx, hvf⟩ := hz
      exact (s.advance.setRegFlag_reg_of_ne r hvf).trans (if_neg hx)
    dt := rfl, st := rfl, mem := fun _ => rfl, fault := rfl, tExec := rfl, tTimer := rfl, params := rfl,
    pending := rfl, disp := fun _ => rfl, events := rfl, i := rfl, stack := rfl }

/-- An instruction that writes a result and its flag after the advance: what holds of the result holds of V[x] unless
that is VF, VF is 1 when the flag's condition holds and else 0, and nothing else changed. -/
theorem exists_next_of_advance_setRegFlag {i : Instr} {s : State} {x : Reg} {r : Byte × Bool} (P : Byte → Prop)
    (c : Prop) [Decidable c] (h : exec i s = .next (s.advance.setRegFlag x r)) (hP : P r.1) (hc : r.2 = true ↔ c) :
    ∃ t, exec i s = .next t ∧ (x ≠ 15 → P (t.reg x)) ∧ (t.reg 15).toNat = (if c then 1 else 0) ∧
      t.pc = s.pc + 2 ∧ KeepsRest [x, 15] s t := by
  refine ⟨_, h, fun hx => ?_, ?_, rfl, keepsRest_advance_setRegFlag s x r⟩
  · rwa [State.setRegFlag_reg_of_ne s.advance r hx, if_pos rfl]
  · rw [State.setRegFlag_reg_vf, flagByte_toNat]
    simp only [hc]

/-- The difference with its flag, as numbers (41_register_alu.md R127). -/
theorem subWithFlag_toNat (a b : Byte) :
    (subWithFlag a b).1.toNat =
      if b.toNat < a.toNat then a.toNat - b.toNat else (256 - (b.toNat - a.toNat)) % 256 := by
  obtain ⟨hdiff, -⟩ := subWithFlag_spec a b
  rw [hdiff, BitVec.toNat_sub]
  split <;> omega

end Sys2Proof.Machine
end

section

open Sys2Proof Sys2Proof.Machine

/-- Settles O17, by the two cases of the limit. -/
theorem callPushesOrOverflows : Obligations.CallPushesOrOverflows := by
  intro s addr
  constructor
  · intro hroom
    exact ⟨_, exec_call_of_room addr hroom, zext16_toNat addr, rfl, rfl, keepsDisplay_setStack_setPc s _ _⟩
  · intro hlimit
    have hword : encode (.call addr) = 0x2000 + addr.setWidth 16 := by
      apply BitVec.eq_of_toNat_eq
      rw [encode, encodeAddr_toNat, BitVec.toNat_add, BitVec.toNat_setWidth]
      change 0x2 * 4096 + addr.toNat = (0x2000 + addr.toNat % 2 ^ 16) % 2 ^ 16
      omega
    rw [exec_call_of_limit addr hlimit, raise, hword]

/-- Settles O18: the return takes off what the call pushed, so that both together write the PC alone. -/
theorem callThenRetResumesAfterTheCall : Obligations.CallThenRetResumesAfterTheCall := fun s addr hroom =>
  ⟨_, _, exec_call_of_room addr hroom, exec_ret_of_append rfl, rfl, keepsRest_setPc s (s.pc + 2)⟩

/-- Settles O20: each skip is one write of the PC. -/
theorem skipsOnRegisters : Obligations.SkipsOnRegisters := by
  intro s x y
  constructor
  · exact ⟨_, exec_seReg x y s, rfl, keepsRest_setPc s _⟩
  · exact ⟨_, exec_sneReg x y s, rfl, keepsRest_setPc s _⟩

/-- Settles O25: the sum and the carry are those of the old values. -/
theorem addSetsCarry : Obligations.AddSetsCarry := by
  intro s x y
  obtain ⟨hsum, hcarry⟩ := addWithCarry_spec (s.reg x) (s.reg y)
  exact exists_next_of_advance_setRegFlag (fun b => b.toNat = ((s.reg x).toNat + (s.reg y).toNat) % 256) _
    (exec_addReg x y s) hsum hcarry

/-- Settles O26: the difference V[x] - V[y] and its flag. -/
theorem subSetsFlagWhenGreater : Obligations.SubSetsFlagWhenGreater := by
  intro s x y
  obtain ⟨-, hflag⟩ := subWithFlag_spec (s.reg x) (s.reg y)
  exact exists_next_of_advance_setRegFlag (fun b => b.toNat = if (s.reg y).toNat < (s.reg x).toNat
      then (s.reg x).toNat - (s.reg y).toNat else (256 - ((s.reg y).toNat - (s.reg x).toNat)) % 256) _
    (exec_subReg x y s) (subWithFlag_toNat _ _) hflag

/-- Settles O27: the difference V[y] - V[x] and its flag. -/
theorem subnSetsFlagWhenGreater : Obligations.SubnSetsFlagWhenGreater := by
  intro s x y
  obtain ⟨-, hflag⟩ := subWithFlag_spec (s.reg y) (s.reg x)
  exact exists_next_of_advance_setRegFlag (fun b => b.toNat = if (s.reg x).toNat < (s.reg y).toNat
      then (s.reg y).toNat - (s.reg x).toNat else (256 - ((s.reg x).toNat - (s.reg y).toNat)) % 256) _
    (exec_subnReg x y s) (subWithFlag_toNat _ _) hflag

end

section
/-! Proofs about timers and instructions (10_state.md section 5): an instruction and a Cycle do the same from any other
timers and any other events, so that a Cycle and a Tick commute. -/

namespace Sys2Proof.Machine

/-- The state with other timers and other events. -/
def State.retime (s : State) (d u : Byte) (es : List Event) : State := { s with dt := d, st := u, events := es }

/-- A command does not see the timers nor the events: from others it answers the same state with those timers, which it
leaves, and with the events that it emits after those events. -/
def BlindToTimers (run : State → Host.Outcome State Fault Refusal) (s : State) : Prop :=
  ∃ t new, run s = .next t ∧ t.dt = s.dt ∧ t.st = s.st ∧ t.events = s.events ++ new ∧
    ∀ d u es, run (s.retime d u es) = .next (t.retime d u (es ++ new))

/-- The case of a command that emits nothing. -/
theorem BlindToTimers.of_quiet {run : State → Host.Outcome State Fault Refusal} {s t : State} (h : run s = .next t)
    (hdt : t.dt = s.dt) (hst : t.st = s.st) (hev : t.events = s.events)
    (h' : ∀ d u es, run (s.retime d u es) = .next (t.retime d u es)) : BlindToTimers run s :=
  ⟨t, [], h, hdt, hst, by rw [hev, List.append_nil], fun d u es => by rw [h', List.append_nil]⟩

/-- No instruction reads a timer or the events. -/
theorem exec_blindToTimers (i : Instr) (s : State) : BlindToTimers (exec i) s := by
  cases i with
  | ret =>
    rcases List.eq_nil_or_concat' s.stack with h | ⟨l, w, h⟩
    · exact .of_quiet (exec_ret_of_nil h) rfl rfl rfl fun d u es => exec_ret_of_nil (s := s.retime d u es) h
    · exact .of_quiet (exec_ret_of_append h) rfl rfl rfl fun d u es => exec_ret_of_append (s := s.retime d u es) h
  | call addr =>
    by_cases h : s.params.stackLimit = some s.stack.length
    · exact .of_quiet (exec_call_of_limit addr h) rfl rfl rfl fun d u es =>
        exec_call_of_limit (s := s.retime d u es) addr h
    · exact .of_quiet (exec_call_of_room addr h) rfl rfl rfl fun d u es =>
        exec_call_of_room (s := s.retime d u es) addr h
  | drw x y n =>
    by_cases h : 0 < n ∧ 0xFFF < s.i.toNat + n - 1
    · exact .of_quiet (exec_drw_of_past_top x y h) rfl rfl rfl fun d u es =>
        exec_drw_of_past_top (s := s.retime d u es) x y h
    · exact ⟨_, [.draw (drawnOnto s x y n).1], exec_drw_of_rows x y h, rfl, rfl, rfl, fun d u es =>
        exec_drw_of_rows (s := s.retime d u es) x y h⟩
  | seImm x nn => exact .of_quiet (exec_seImm x nn s) rfl rfl rfl fun d u es => exec_seImm x nn (s.retime d u es)
  | sneImm x nn => exact .of_quiet (exec_sneImm x nn s) rfl rfl rfl fun d u es => exec_sneImm x nn (s.retime d u es)
  | seReg x y => exact .of_quiet (exec_seReg x y s) rfl rfl rfl fun d u es => exec_seReg x y (s.retime d u es)
  | sneReg x y => exact .of_quiet (exec_sneReg x y s) rfl rfl rfl fun d u es => exec_sneReg x y (s.retime d u es)
  | _ => exact .of_quiet rfl rfl rfl rfl fun _ _ _ => rfl

/-- Nor does a Cycle of a running block: it fetches and decodes the same word. -/
theorem cycle_blindToTimers {s : State} (hf : s.fault = none) : BlindToTimers cycle s := by
  rcases cycle_cases hf with ⟨hpc, hc⟩ | ⟨hpc, w, hw, ⟨hd, hc⟩ | ⟨i, hd, hc⟩⟩
  · exact .of_quiet hc rfl rfl rfl fun d u es => cycle_of_past_top (s := s.retime d u es) hf hpc
  · exact .of_quiet hc rfl rfl rfl fun d u es => cycle_of_unimplemented (s := s.retime d u es) hf hpc hw hd
  · obtain ⟨t, new, ht, hdt, hst, hev, hother⟩ := exec_blindToTimers i s
    exact ⟨t, new, hc.trans ht, hdt, hst, hev, fun d u es =>
      (cycle_of_decode (s := s.retime d u es) hf hpc (hw ▸ hd)).trans (hother d u es)⟩

end Sys2Proof.Machine
end

section

open Sys2Proof Sys2Proof.Machine

/-- Settles O37: other timers are a case of other timers and events. -/
theorem instructionsDoNotSeeTheTimers : Obligations.InstructionsDoNotSeeTheTimers := by
  intro i s d u
  obtain ⟨t, new, ht, hdt, hst, hev, hother⟩ := exec_blindToTimers i s
  refine ⟨t, ht, (hother d u s.events).trans ?_, hdt, hst⟩
  rw [← hev]
  rfl

/-- Settles O36: a Tick changes only what no Cycle sees, and both orders emit the Cycle's events and the Beep. -/
theorem cycleAndTickCommute : Obligations.CycleAndTickCommute := by
  intro s s1 s2 hf hc hf1 ht
  obtain ⟨t, new, hct, hdt, hst, hev, hother⟩ := cycle_blindToTimers hf
  cases hc.symm.trans hct
  cases (tick_eq_next hf1).symm.trans ht
  refine ⟨_, _, tick_eq_next hf, hother _ _ _, ?_, ?_⟩
  · rw [hdt, hst]
    rfl
  · change (s.events ++ _ ++ new).Perm (s1.events ++ _)
    rw [hev, hst, List.append_assoc, List.append_assoc]
    exact List.perm_append_comm.append_left s.events

end

section
/-! Proofs about the display (42_display.md): what CLS and DRW leave, pixel by pixel and byte by byte. -/

namespace Sys2Proof.Machine

/-- Two displays that show the same pixels hold the same bytes (10_state.md R30). -/
theorem Display.byte_eq_of_pixel_eq {d d' : Display} (h : ∀ c r, c < 64 → r < 32 → d.pixel c r = d'.pixel c r)
    {j : Nat} (hj : j < 256) : d.byte j = d'.byte j := by
  refine BitVec.eq_of_getLsbD_eq fun k hk => ?_
  have hpixel := h (j % 8 * 8 + (7 - k)) (j / 8) (by omega) (by omega)
  have hbyte : j / 8 * 8 + (j % 8 * 8 + (7 - k)) / 8 = j := by omega
  have hbit : 7 - (j % 8 * 8 + (7 - k)) % 8 = k := by omega
  rwa [Display.pixel, Display.pixel, Config.rowBytes, hbyte, hbit] at hpixel

theorem flagByte_eq_zero_or_one (f : Bool) : flagByte f = 0 ∨ flagByte f = 1 := by cases f <;> decide

theorem flagByte_eq_one_iff (f : Bool) : flagByte f = 1 ↔ f = true := by cases f <;> decide

/-- The display after CLS shows 256 zero bytes. -/
theorem displayPort_of_zero {s : State} (h : ∀ j, s.disp.byte j = 0) : s.displayPort = List.replicate 256 0 := by
  refine List.eq_replicate_iff.mpr ⟨by rw [State.displayPort, List.length_map, List.length_range], fun b hb => ?_⟩
  obtain ⟨j, -, rfl⟩ := List.mem_map.mp hb
  exact h j

/-! ## The state after a DRW -/

theorem spriteRows_length (s : State) (n : Nat) : (spriteRows s n).length = n := by
  rw [spriteRows, List.length_map, List.length_range']

theorem spriteRows_getD (s : State) {n k : Nat} (hk : k < n) :
    (spriteRows s n).getD k 0 = s.mem.byte (s.i.toNat + k) := by
  simp [spriteRows, List.getD, hk]

/-- The bit of the drawn rows at a pixel is the sprite's bit of the specification (42_display.md R148). -/
theorem rowsBit_spriteRows (s : State) (cx cy n : Nat) {c : Nat} (r : Nat) (hc : c < 64) :
    rowsBit cx cy (spriteRows s n) c r = spriteBit s cx cy s.i.toNat n c r := by
  rw [rowsBit, rowBit, spriteBit, spriteRows_length]
  by_cases hr : cy ≤ r ∧ r < cy + n ∧ r < 32
  · have hfoot : inFootprint cx cy n c r ↔ cx ≤ c ∧ c < cx + 8 :=
      ⟨fun ⟨hle, hlt, _⟩ => ⟨hle, hlt⟩, fun ⟨hle, hlt⟩ => ⟨hle, hlt, hc, hr⟩⟩
    rw [decide_eq_true hr, spriteRows_getD s (by omega : r - cy < n), Bool.true_and, decide_eq_decide.mpr hfoot]
  · have hfoot : ¬ inFootprint cx cy n c r := fun ⟨_, _, _, h⟩ => hr h
    rw [decide_eq_false hr, decide_eq_false hfoot, Bool.false_and, Bool.false_and]

/-- DRW XORs the sprite's bit into each pixel (42_display.md R148). -/
theorem afterDrw_pixel (s : State) (x y : Reg) (n : Nat) {c : Nat} (r : Nat) (hc : c < 64) :
    (afterDrw s x y n).disp.pixel c r = (s.disp.pixel c r ^^ drawnBit s x y n c r) := by
  obtain ⟨hpixel, -⟩ := drawRows_pixel s.disp (startRow (s.reg y)) (spriteRows s n) (startColumn_lt (s.reg x))
  rw [drawnBit, ← rowsBit_spriteRows s _ _ n r hc]
  exact hpixel c r hc

theorem afterDrw_vf (s : State) (x y : Reg) (n : Nat) :
    (afterDrw s x y n).reg 15 = flagByte (drawnOnto s x y n).2 :=
  State.setReg_reg_same _ vf _

/-- VF is 1 after a DRW exactly when a set pixel met a set bit of the sprite (42_display.md R146). -/
theorem afterDrw_vf_eq_one_iff (s : State) (x y : Reg) (n : Nat) :
    (afterDrw s x y n).reg 15 = 1 ↔
      ∃ c r, c < 64 ∧ r < 32 ∧ s.disp.pixel c r = true ∧ drawnBit s x y n c r = true := by
  obtain ⟨-, hflag⟩ := drawRows_pixel s.disp (startRow (s.reg y)) (spriteRows s n) (startColumn_lt (s.reg x))
  rw [afterDrw_vf, flagByte_eq_one_iff, drawnOnto, hflag]
  constructor
  · rintro ⟨c, r, hc, hp, hb⟩
    rw [rowsBit_spriteRows s _ _ n r hc] at hb
    have hfoot : inFootprint _ _ n c r := of_decide_eq_true (Bool.and_eq_true_iff.mp hb).1
    exact ⟨c, r, hc, by omega, hp, hb⟩
  · rintro ⟨c, r, hc, -, hp, hb⟩
    exact ⟨c, r, hc, hp, (rowsBit_spriteRows s _ _ n r hc).trans hb⟩

/-- DRW writes VF, the display, the PC and the events alone. -/
theorem keepsCommon_afterDrw (s : State) (x y : Reg) (n : Nat) : KeepsCommon [15] s (afterDrw s x y n) :=
  { reg := fun _ hz => State.setReg_reg_of_ne _ _ (List.ne_of_not_mem_cons hz)
    dt := rfl, st := rfl, mem := fun _ => rfl, fault := rfl, tExec := rfl, tTimer := rfl, params := rfl,
    pending := rfl }

/-- A sprite of one row XORs its mask into every byte (42_display.md R145). -/
theorem afterDrw_one_byte (s : State) (x y : Reg) (j : Nat) :
    (afterDrw s x y 1).disp.byte j =
      s.disp.byte j ^^^ rowMask (startColumn (s.reg x)) (startRow (s.reg y)) (s.mem.byte s.i.toNat) j := by
  obtain ⟨hbyte, -⟩ := blitRow_spec s.disp (s.mem.byte s.i.toNat) (startColumn_lt (s.reg x)) (startRow_lt (s.reg y))
  rw [← hbyte]
  have hrows : drawnOnto s x y 1 =
      drawRows s.disp (startColumn (s.reg x)) (startRow (s.reg y)) [s.mem.byte s.i.toNat] := rfl
  change (drawnOnto s x y 1).1.byte j = _
  rw [hrows, drawRows_cons _ _ _ _ (startRow_lt (s.reg y))]
  rfl

/-- What decides the bits drawn: the two registers, I, and memory. -/
theorem drawnBit_congr {s t : State} {x y : Reg} (hx : t.reg x = s.reg x) (hy : t.reg y = s.reg y) (hi : t.i = s.i)
    (hmem : ∀ a, t.mem.byte a = s.mem.byte a) (n c r : Nat) : drawnBit t x y n c r = drawnBit s x y n c r := by
  simp only [drawnBit, spriteBit, hx, hy, hi, hmem]

end Sys2Proof.Machine
end

section

open Sys2Proof Sys2Proof.Machine

/-- Settles O29: the cleared display lists no byte. -/
theorem clsClearsTheDisplay : Obligations.ClsClearsTheDisplay := by
  intro s
  refine ⟨_, exec_cls s, displayPort_of_zero Display.byte_clear, Display.byte_clear, rfl, rfl, rfl, rfl, ?_⟩
  exact { reg := fun _ _ => rfl, dt := rfl, st := rfl, mem := fun _ => rfl, fault := rfl, tExec := rfl, tTimer := rfl,
          params := rfl, pending := rfl }

/-- Settles O30: the rows exist, so that they are drawn one below the other. -/
theorem drwXorsTheSpriteOntoTheDisplay : Obligations.DrwXorsTheSpriteOntoTheDisplay := by
  intro s x y n hn
  exact ⟨_, exec_drw_of_rows x y (by omega), fun c r hc _ => afterDrw_pixel s x y n r hc,
    afterDrw_vf s x y n ▸ flagByte_eq_zero_or_one _, afterDrw_vf_eq_one_iff s x y n, rfl, rfl, rfl, rfl,
    keepsCommon_afterDrw s x y n⟩

/-- Settles O31: the mask of the one row is the shifted byte at the start column, and the overflow after it. -/
theorem drwOfOneRowSplitsAcrossTwoBytes : Obligations.DrwOfOneRowSplitsAcrossTwoBytes := by
  intro s x y hi
  refine ⟨_, exec_drw_of_rows x y (by omega), fun j _ => (afterDrw_one_byte s x y j).trans ?_⟩
  have hoff : (s.reg x).toNat % 64 % 8 = (s.reg x).toNat % 8 := by omega
  have hnext : (s.reg x).toNat % 64 / 8 + 1 < 8 ↔ (s.reg x).toNat % 64 / 8 < 7 := by omega
  simp only [rowMask, startColumn_eq, startRow_eq, hoff, hnext]

/-- Settles O32: the word that DRW records is the sum of its fields at their places. -/
theorem drwPastTheTopFaults : Obligations.DrwPastTheTopFaults := by
  intro s x y n hn hn16 htop
  have hword : encode (.drw x y n) = BitVec.ofNat 16 (0xD000 + x.val * 256 + y.val * 16 + n) := by
    apply BitVec.eq_of_toNat_eq
    rw [encode, encodeXY_toNat, BitVec.toNat_ofNat, BitVec.toNat_ofNat]
    change 0xD * 4096 + _ + _ + _ = _
    omega
  rw [exec_drw_of_past_top x y ⟨hn, htop⟩, raise, hword]

/-- Settles O33: both draws XOR the same bits, so that they cancel and a pixel that the second finds set where it draws
is one that the first turned on. -/
theorem drwTwiceRestoresTheDisplay : Obligations.DrwTwiceRestoresTheDisplay := by
  intro s x y n hx hy hn
  obtain ⟨t, ht, hpix, -, -, -, -, hi, -, hkeep⟩ := drwXorsTheSpriteOntoTheDisplay s x y n hn
  obtain ⟨u, hu, hpix', -, hflag, -⟩ := drwXorsTheSpriteOntoTheDisplay t x y n (by rwa [hi])
  have hbit := drawnBit_congr (hkeep.reg x (by simpa using hx)) (hkeep.reg y (by simpa using hy)) hi hkeep.mem n
  refine ⟨t, u, ht, hu, fun j hj => Display.byte_eq_of_pixel_eq (fun c r hc hr => ?_) hj, hflag.trans ?_⟩
  · rw [hpix' c r hc hr, hbit, hpix c r hc hr, Bool.xor_assoc, Bool.xor_self, Bool.xor_false]
  · refine exists_congr fun c => exists_congr fun r => and_congr_right fun hc => and_congr_right fun hr => ?_
    rw [hbit, hpix c r hc hr]
    cases s.disp.pixel c r <;> cases drawnBit s x y n c r <;> decide

end

section
/-! Proofs about the stores, Construct and the read ports (10_state.md section 9, 70_reset_and_hazards.md section 1,
20_memory.md section 1, 60_exceptions.md section 5). -/

namespace Sys2Proof.Machine

/-! ## The canonical form -/

/-- In a list by rising address an entry is what a lookup of its address finds. -/
theorem mem_iff_cellLookup {cs : List Host.Cell} (h : cs.Pairwise (fun c d => c.1 < d.1)) (c : Host.Cell) :
    c ∈ cs ↔ cellLookup cs c.1 = some c.2 := by
  induction cs with
  | nil => simp [cellLookup]
  | cons d cs ih =>
    obtain ⟨hd, hcs⟩ := List.pairwise_cons.mp h
    rw [List.mem_cons, cellLookup]
    by_cases hdc : d.1 = c.1
    · have hnot : c ∉ cs := fun hc => absurd (hd c hc) (by omega)
      rw [if_pos hdc, or_iff_left hnot, Prod.ext_iff, and_iff_right hdc.symm, Option.some.injEq, eq_comm]
    · have hne : c ≠ d := fun h => hdc (h ▸ rfl)
      rw [if_neg hdc, ← ih hcs, or_iff_right hne]

/-- A store in canonical form lists exactly the bytes that exist and differ from what an unlisted address reads as. -/
theorem mem_iff_of_cellsWf {rest : Nat → Byte} {size : Nat} {cs : List Host.Cell} (h : cellsWf rest size cs)
    (c : Host.Cell) : c ∈ cs ↔ c.1 < size ∧ c.2 ≠ rest c.1 ∧ (cellLookup cs c.1).getD (rest c.1) = c.2 := by
  obtain ⟨hsorted, hlisted⟩ := h
  constructor
  · intro hc
    obtain ⟨hlt, hne⟩ := hlisted c hc
    exact ⟨hlt, hne, by rw [(mem_iff_cellLookup hsorted c).mp hc, Option.getD_some]⟩
  · rintro ⟨-, hne, hread⟩
    rw [mem_iff_cellLookup hsorted]
    cases hl : cellLookup cs c.1 with
    | none => exact absurd (by rw [← hread, hl, Option.getD_none]) hne
    | some b => rw [← hread, hl, Option.getD_some]

/-- Two lists by rising address with the same entries are equal. -/
theorem cells_ext {cs ds : List Host.Cell} (hcs : cs.Pairwise (fun c d => c.1 < d.1))
    (hds : ds.Pairwise (fun c d => c.1 < d.1)) (h : ∀ c, c ∈ cs ↔ c ∈ ds) : cs = ds := by
  have hnodup : ∀ l : List Host.Cell, l.Pairwise (fun c d => c.1 < d.1) → l.Nodup := fun l hl =>
    hl.imp fun hlt heq => absurd hlt (by rw [heq]; exact lt_irrefl _)
  have hperm : cs.Perm ds := (List.perm_ext_iff_of_nodup (hnodup cs hcs) (hnodup ds hds)).mpr h
  exact hperm.eq_of_pairwise (fun _ _ _ _ hlt hgt => absurd hgt hlt.asymm) hcs hds

/-! ## Reset -/

theorem reset_reg (z : Reg) : State.reset.reg z = 0 := by
  simp [State.reg, State.reset]

/-! ## Construct -/

theorem construct_of_too_large (p : Config.Params) {program : List Byte} (font : Option (List Byte)) (now : Time)
    (h : 3584 < program.length) : construct p program font now = .error (.programTooLarge program.length) :=
  if_pos h

/-- The length of the program is checked before that of the font (60_exceptions.md R169). -/
theorem construct_of_bad_font (p : Config.Params) {program f : List Byte} (now : Time)
    (hp : program.length ≤ 3584) (hf : f.length ≠ 80) :
    construct p program (some f) now = .error (.fontSizeInvalid f.length) := by
  have hbad : badFontLength (some f) = some f.length := if_neg hf
  simp [construct, Nat.not_lt.mpr hp, hbad]

/-- A font that is given and has its size, or is not given, fits (60_exceptions.md R167). -/
theorem length_getD_font_le {font : Option (List Byte)} (hf : ∀ f, font = some f → f.length = 80) :
    (font.getD []).length ≤ 80 := by
  cases font with
  | none => exact Nat.zero_le 80
  | some f => exact (hf f rfl).le

section LoadedMemory

variable {program : List Byte} {font : Option (List Byte)} (hp : program.length ≤ 3584)
  (hf : ∀ f, font = some f → f.length = 80)

include hp hf

theorem loadMemory_program {k : Nat} (hk : k < program.length) :
    (loadMemory program font).byte (0x200 + k) = program[k] := by
  rw [loadMemory_byte _ _ _ hp (length_getD_font_le hf), dif_pos ⟨by omega, by omega⟩]
  simp only [Nat.add_sub_cancel_left]

theorem loadMemory_font {f : List Byte} (hfont : font = some f) {k : Nat} (hk : k < f.length) :
    (loadMemory program font).byte (0x050 + k) = f[k] := by
  have hlen := hf f hfont
  subst hfont
  rw [loadMemory_byte _ _ _ hp (length_getD_font_le hf), dif_neg (by omega), dif_pos ⟨by omega, by simpa using hk⟩]
  simp only [Nat.add_sub_cancel_left, Option.getD_some]

theorem loadMemory_builtin_font (hfont : font = none) {k : Nat} (hk : k < 80) :
    (loadMemory program font).byte (0x050 + k) = Config.defaultFont[k] := by
  subst hfont
  rw [loadMemory_byte _ _ _ hp (length_getD_font_le hf), dif_neg (by omega), dif_neg (by simp)]
  exact Memory.unlisted_font hk

theorem loadMemory_elsewhere {a : Nat} (ha : a < 0x050 ∨ (0x09F < a ∧ a < 0x200) ∨ 0x200 + program.length ≤ a) :
    (loadMemory program font).byte a = 0 := by
  have hlen := length_getD_font_le hf
  rw [loadMemory_byte _ _ _ hp hlen, dif_neg (by omega), dif_neg (by omega)]
  exact Memory.unlisted_of_not_font (by omega)

end LoadedMemory

end Sys2Proof.Machine
end

section

open Sys2Proof Sys2Proof.Machine

/-- Settles O44: both lists have as their entries what reads differently from reset. -/
theorem canonicalMemoriesThatReadAlikeAreEqual : Obligations.CanonicalMemoriesThatReadAlikeAreEqual := by
  intro m m' hm hm' hread
  obtain ⟨hsorted, hlisted⟩ := hm
  obtain ⟨hsorted', hlisted'⟩ := hm'
  refine cells_ext hsorted hsorted' fun c => ?_
  rw [mem_iff_of_cellsWf ⟨hsorted, hlisted⟩, mem_iff_of_cellsWf ⟨hsorted', hlisted'⟩]
  refine and_congr_right fun hlt => and_congr_right fun _ => ?_
  have hbyte : m.byte c.1 = m'.byte c.1 := hread c.1 (Nat.le_of_lt_succ hlt)
  rw [Memory.byte, Memory.byte] at hbyte
  rw [hbyte]

/-- Settles O6: unlisted addresses read as the built-in font and zero. -/
theorem resetLeavesTheConstructionState : Obligations.ResetLeavesTheConstructionState := by
  refine ⟨reset_reg, rfl, rfl, rfl, rfl, rfl, rfl, fun a _ ha => ?_, fun k hk => Memory.unlisted_font hk,
    fun j _ => rfl, rfl, rfl, rfl, rfl, rfl, rfl, rfl⟩
  exact Memory.unlisted_of_not_font (by omega)

/-- Settles O7: the sizes decide, and what is constructed is the reset state with the loaded memory. -/
theorem constructLoadsFontAndProgram : Obligations.ConstructLoadsFontAndProgram := by
  intro p program font now
  refine ⟨construct_of_too_large p font now, ?_, fun hp hf => ?_⟩
  · rintro hp f rfl hlen
    exact construct_of_bad_font p now hp hlen
  · exact ⟨_, construct_of_fit p now hp hf, reset_reg, rfl, rfl, rfl, rfl, rfl,
      fun _ => loadMemory_program hp hf, fun _ hfont _ => loadMemory_font hp hf hfont,
      fun hfont _ => loadMemory_builtin_font hp hf hfont, fun _ => loadMemory_elsewhere hp hf,
      fun _ => rfl, rfl, rfl, rfl, rfl, rfl, rfl⟩

/-- Settles O8: Construct reads the parameters and the coming commands only, and answers a state when the sizes fit. -/
theorem constructRestartsFromAnyState : Obligations.ConstructRestartsFromAnyState := by
  intro s s' program font now q hq hpending hparams
  have hstep := step_of_cons hq
  refine ⟨?_, fun hp hf => ?_, fun hunfit => ?_⟩
  · rw [hstep, step_of_cons (hpending.trans hq)]
    simp only [runCommand, State.setPending_params, State.setPending_pending, hparams]
  · have hk := construct_of_fit s.params now hp hf
    refine ⟨_, hk, ?_, rfl, rfl⟩
    simp only [hstep, runCommand, State.setPending_params, State.setPending_pending, hk]
  · cases hk : construct s.params program font now with
    | ok t =>
      obtain ⟨hp, hf, -⟩ := construct_ok hk
      exact absurd ⟨hp, hf⟩ hunfit
    | error e =>
      refine ⟨e, rfl, ?_⟩
      simp only [hstep, runCommand, State.setPending_params, hk]

/-- Settles O40: each port maps the addresses to their bytes, and a read is a step to the same state. -/
theorem readPortsShowMemoryDisplayAndFault : Obligations.ReadPortsShowMemoryDisplayAndFault := by
  intro s
  refine ⟨?_, fun a ha => ?_, ?_, fun j hj => ?_, rfl, fun c hc q hq => ?_⟩
  · rw [State.memoryPort, List.length_map, List.length_range]
  · rw [State.memoryPort, List.getElem?_map, List.getElem?_range (Nat.lt_succ_of_le ha), Option.map_some]
  · rw [State.displayPort, List.length_map, List.length_range]
  · rw [State.displayPort, List.getElem?_map, List.getElem?_range hj, Option.map_some]
  · rw [step_of_cons hq]
    simp only [List.mem_cons, List.not_mem_nil, or_false] at hc
    rcases hc with rfl | rfl | rfl <;> rfl

end
